-- ==== Sys2Proof/Word.lean ====
section
/-! DEFINITION. The one word type of the machine and its plainest arithmetic.

Every register, memory cell, operand byte and opcode is an unsigned 8-bit value (00_scope.md rule R4,
10_state.md rule R11); nothing is ever read as signed. -/

namespace Sys2Proof

/-- An unsigned 8-bit value: a register, a memory cell, an instruction byte (R4, R11, R22). -/
abbrev Byte := BitVec 8

/-- An exact natural-number result stored modulo 256 (R11, R105; the spec's decision D1). -/
def wrap (n : Nat) : Byte := BitVec.ofNat 8 n

end Sys2Proof
end

