-- ==== Sys2Proof/Config.lean ====
section
/-! DEFINITION. The fixed parameters of the hardware (00_scope.md rule R3).

Where the other rows of R3's table live: CELL_BITS and XLEN are the width of `Byte` (Word.lean); NREGS is the
length of the register file in `State.x`; PC range is the type Nat of `State.pc`; FLAG is the type `Flag`;
MAX_OPERANDS shows in the formats of `Instr`. The two rows that R3 lets a model take as arguments are defined
where a later repair may mend them: OPCODE_TABLE is `opcodeTable` in Decode.lean, FLAG_UNSET_AS_FALSE is
`Machine.flagUnsetAsFalse` in Machine/Flags.lean. -/

namespace Sys2Proof.Config

/-- MEM_SIZE: addresses 0 to 255 (R3, R22). -/
@[simp] abbrev memSize : Nat := 256

/-- SP_INIT: the stack pointer at reset (R3, R23). -/
abbrev spInit : Byte := 0xF4#8

/-- PC_INIT: the program counter at reset (R3, R23, R211). -/
abbrev pcInit : Nat := 0

end Sys2Proof.Config
end

