-- ==== Sys2Proof/Syntax.lean ====
section
/-! DEFINITION. The instructions: one constructor per row of spec/opcode_table.json (30_encoding.md rule R56).

An operand is one whole byte taken as an unsigned number (R54). A register operand is kept as that number and is
never masked: an index of 8 or more is an instruction like any other and raises OutOfRange when, and only when,
the register is accessed (R54, R59; 10_state.md R13). The immediate of LDI is the byte itself (R120). -/

namespace Sys2Proof

/-- The 34 recognised instructions with the operands of their formats F0, F1, F2 (R50, R56). A register operand is the
value of its operand byte (R54): 0 to 255 in a well-formed instruction. -/
inductive Instr where
  -- F0, one byte
  | nop
  | hlt
  | ret
  | iret
  -- F1, two bytes
  | push (a : Nat)
  | pop (a : Nat)
  | prn (a : Nat)
  | pra (a : Nat)
  | call (a : Nat)
  | int (a : Nat)
  | jmp (a : Nat)
  | jeq (a : Nat)
  | jne (a : Nat)
  | jgt (a : Nat)
  | jlt (a : Nat)
  | jle (a : Nat)
  | jge (a : Nat)
  | inc (a : Nat)
  | dec (a : Nat)
  | not (a : Nat)
  -- F2, three bytes
  | ldi (a : Nat) (imm : Byte)
  | ld (a b : Nat)
  | st (a b : Nat)
  | add (a b : Nat)
  | sub (a b : Nat)
  | mul (a b : Nat)
  | div (a b : Nat)
  | mod (a b : Nat)
  | cmp (a b : Nat)
  | and (a b : Nat)
  | or (a b : Nat)
  | xor (a b : Nat)
  | shl (a b : Nat)
  | shr (a b : Nat)
  deriving DecidableEq, Repr

end Sys2Proof
end

