-- ==== Sys2Proof/WellFormed.lean ====
section
/-! DEFINITION. Which terms of `Instr` stand for bytes: every operand fits its byte (30_encoding.md rule R54).

Nothing else is checked. In particular an index of 8 or more is well-formed: R59 makes the upper five bits part of
the index, and R13 makes the access, not the encoding, the fault. -/

namespace Sys2Proof

/-- An operand is one byte, 0 to 255 (R54). -/
def operandFits (n : Nat) : Bool := n < 256

/-- Every register operand of the instruction fits its byte (R54). -/
def Instr.wellFormed : Instr → Bool
  | .nop | .hlt | .ret | .iret => true
  | .push a | .pop a | .prn a | .pra a | .call a | .int a | .jmp a | .jeq a | .jne a => operandFits a
  | .jgt a | .jlt a | .jle a | .jge a | .inc a | .dec a | .not a => operandFits a
  | .ldi a _ => operandFits a
  | .ld a b | .st a b | .add a b | .sub a b | .mul a b | .div a b | .mod a b => operandFits a && operandFits b
  | .cmp a b | .and a b | .or a b | .xor a b | .shl a b | .shr a b => operandFits a && operandFits b

end Sys2Proof
end

