-- ==== Sys2Proof/Decode.lean ====
section
/-! DEFINITION. The opcode table, the derived fields of an opcode byte, the decoder and the encoder
(30_encoding.md). Every byte of the table is the spec's R56 and rests on it (log 2): the source lost its own table. -/

namespace Sys2Proof

/-- The instruction identity: "a closed enumeration (symbolic name) obtained by table lookup" (00_scope.md R7, R57). -/
inductive Mnemonic where
  | nop | hlt | ret | iret
  | push | pop | prn | pra | call | int | jmp | jeq | jne | jgt | jlt | jle | jge | inc | dec | not
  | ldi | ld | st | add | sub | mul | div | mod | cmp | and | or | xor | shl | shr
  deriving DecidableEq, Repr

/-- OPCODE_TABLE as a value (R3, R56): rows of an opcode byte and the identity it stands for. -/
abbrev OpcodeTable := List (Byte × Mnemonic)

/-- The rows of format F0, one byte (R50, R56). -/
def opcodeRowsF0 : OpcodeTable :=
  [(0b00000000#8, .nop), (0b00000001#8, .hlt), (0b00010001#8, .ret), (0b00010011#8, .iret)]

/-- The rows of format F1 with `alu` = 0, two bytes (R50, R56). -/
def opcodeRowsF1 : OpcodeTable :=
  [(0b01000101#8, .push), (0b01000110#8, .pop), (0b01000111#8, .prn), (0b01001000#8, .pra),
   (0b01010000#8, .call), (0b01010010#8, .int), (0b01010100#8, .jmp), (0b01010101#8, .jeq),
   (0b01010110#8, .jne), (0b01010111#8, .jgt), (0b01011000#8, .jlt), (0b01011001#8, .jle),
   (0b01011010#8, .jge)]

/-- The rows of format F1 with `alu` = 1, two bytes (R50, R56). -/
def opcodeRowsF1Alu : OpcodeTable :=
  [(0b01100101#8, .inc), (0b01100110#8, .dec), (0b01101001#8, .not)]

/-- The rows of format F2 with `alu` = 0, three bytes (R50, R56). -/
def opcodeRowsF2 : OpcodeTable :=
  [(0b10000010#8, .ldi), (0b10000011#8, .ld), (0b10000100#8, .st)]

/-- The rows of format F2 with `alu` = 1, three bytes (R50, R56). -/
def opcodeRowsF2Alu : OpcodeTable :=
  [(0b10100000#8, .add), (0b10100001#8, .sub), (0b10100010#8, .mul), (0b10100011#8, .div),
   (0b10100100#8, .mod), (0b10100111#8, .cmp), (0b10101000#8, .and), (0b10101010#8, .or),
   (0b10101011#8, .xor), (0b10101100#8, .shl), (0b10101101#8, .shr)]

/-- The default value of the parameter OPCODE_TABLE: the 34 rows of R56.
PRESUMED (unsafe, log 2): the spec takes the bytes from general knowledge of LS-8 (its decisions D6, D7). -/
def opcodeTable : OpcodeTable :=
  opcodeRowsF0 ++ opcodeRowsF1 ++ opcodeRowsF1Alu ++ opcodeRowsF2 ++ opcodeRowsF2Alu

/-- Decoding of one opcode byte in a given table: a pure lookup of the whole byte (R57). -/
def decodeOpcodeIn (table : OpcodeTable) (op : Byte) : Option Mnemonic :=
  (table.find? fun row => row.1 == op).map Prod.snd

/-- Decoding of one opcode byte in the default table; `none` is the unrecognised byte of R182. -/
def decodeOpcode (op : Byte) : Option Mnemonic := decodeOpcodeIn opcodeTable op

/-- The opcode byte of an identity, read from the same table (R56). -/
def Mnemonic.opcode (m : Mnemonic) : Byte :=
  ((opcodeTable.find? fun row => row.2 == m).map Prod.fst).getD 0

/-- `cnt`, the operand count: `op[7:6]`, from the byte itself (R51, R52). -/
def opCnt (op : Byte) : Nat := ((op >>> 6) &&& 0b11#8).toNat

/-- `alu`: `op[5]`, from the byte itself (R51, R52). -/
def opAlu (op : Byte) : Bool := ((op >>> 5) &&& 1#8) == 1#8

/-- `setpc`: `op[4]`, from the byte itself (R51, R52). -/
def opSetpc (op : Byte) : Bool := ((op >>> 4) &&& 1#8) == 1#8

/-- The identities that have an executable handler (R58 class 1). -/
def Mnemonic.handled : Mnemonic → Bool
  | .hlt | .ret | .push | .pop | .prn | .call | .jmp | .jeq | .jne | .inc | .dec => true
  | .ldi | .add | .mul | .div | .cmp | .and => true
  | .nop | .iret | .pra | .int | .jgt | .jlt | .jle | .jge | .not => false
  | .ld | .st | .sub | .mod | .or | .xor | .shl | .shr => false

/-- The instruction of an identity and the two bytes that follow its opcode byte; a byte that is not part of the
instruction is ignored (R50, R54; 40_execution_cycle.md R71, R73). -/
def assemble (m : Mnemonic) (a b : Byte) : Instr :=
  match m with
  | .nop => .nop
  | .hlt => .hlt
  | .ret => .ret
  | .iret => .iret
  | .push => .push a.toNat
  | .pop => .pop a.toNat
  | .prn => .prn a.toNat
  | .pra => .pra a.toNat
  | .call => .call a.toNat
  | .int => .int a.toNat
  | .jmp => .jmp a.toNat
  | .jeq => .jeq a.toNat
  | .jne => .jne a.toNat
  | .jgt => .jgt a.toNat
  | .jlt => .jlt a.toNat
  | .jle => .jle a.toNat
  | .jge => .jge a.toNat
  | .inc => .inc a.toNat
  | .dec => .dec a.toNat
  | .not => .not a.toNat
  | .ldi => .ldi a.toNat b
  | .ld => .ld a.toNat b.toNat
  | .st => .st a.toNat b.toNat
  | .add => .add a.toNat b.toNat
  | .sub => .sub a.toNat b.toNat
  | .mul => .mul a.toNat b.toNat
  | .div => .div a.toNat b.toNat
  | .mod => .mod a.toNat b.toNat
  | .cmp => .cmp a.toNat b.toNat
  | .and => .and a.toNat b.toNat
  | .or => .or a.toNat b.toNat
  | .xor => .xor a.toNat b.toNat
  | .shl => .shl a.toNat b.toNat
  | .shr => .shr a.toNat b.toNat

/-- Why a list of bytes is no instruction: an opcode byte in no row of the table (R57, R182), or fewer bytes than the
opcode's operand count asks for. -/
inductive DecodeError where
  | unknownOpcode (op : Byte)
  | truncated
  deriving DecidableEq, Repr

/-- The instruction at the head of a list of bytes and the bytes after it; total, rejecting by name. The length is
1 + `op[7:6]` (R53), the bytes ascend (20_memory.md R32). -/
def decode : List Byte → Except DecodeError (Instr × List Byte)
  | [] => .error .truncated
  | op :: rest =>
    match decodeOpcode op with
    | none => .error (.unknownOpcode op)
    | some m =>
      match opCnt op, rest with
      | 0, rest => .ok (assemble m 0 0, rest)
      | 1, a :: rest => .ok (assemble m a 0, rest)
      | 2, a :: b :: rest => .ok (assemble m a b, rest)
      | _, _ => .error .truncated

/-- The identity of an instruction. -/
def Instr.mnemonic : Instr → Mnemonic
  | .nop => .nop
  | .hlt => .hlt
  | .ret => .ret
  | .iret => .iret
  | .push _ => .push
  | .pop _ => .pop
  | .prn _ => .prn
  | .pra _ => .pra
  | .call _ => .call
  | .int _ => .int
  | .jmp _ => .jmp
  | .jeq _ => .jeq
  | .jne _ => .jne
  | .jgt _ => .jgt
  | .jlt _ => .jlt
  | .jle _ => .jle
  | .jge _ => .jge
  | .inc _ => .inc
  | .dec _ => .dec
  | .not _ => .not
  | .ldi _ _ => .ldi
  | .ld _ _ => .ld
  | .st _ _ => .st
  | .add _ _ => .add
  | .sub _ _ => .sub
  | .mul _ _ => .mul
  | .div _ _ => .div
  | .mod _ _ => .mod
  | .cmp _ _ => .cmp
  | .and _ _ => .and
  | .or _ _ => .or
  | .xor _ _ => .xor
  | .shl _ _ => .shl
  | .shr _ _ => .shr

/-- The operand bytes of an instruction, in ascending address order (R50, R54). -/
def Instr.operandBytes : Instr → List Byte
  | .nop | .hlt | .ret | .iret => []
  | .push a | .pop a | .prn a | .pra a | .call a | .int a | .jmp a | .jeq a | .jne a => [BitVec.ofNat 8 a]
  | .jgt a | .jlt a | .jle a | .jge a | .inc a | .dec a | .not a => [BitVec.ofNat 8 a]
  | .ldi a imm => [BitVec.ofNat 8 a, imm]
  | .ld a b | .st a b | .add a b | .sub a b | .mul a b | .div a b | .mod a b => [BitVec.ofNat 8 a, BitVec.ofNat 8 b]
  | .cmp a b | .and a b | .or a b | .xor a b | .shl a b | .shr a b => [BitVec.ofNat 8 a, BitVec.ofNat 8 b]

/-- The bytes of a well-formed instruction: the opcode byte of R56, then its operand bytes (R50). -/
def encode (i : Instr) : List Byte := i.mnemonic.opcode :: i.operandBytes

/-- Byte number k of a number, byte 0 the least significant. -/
def byteOf (w k : Nat) : Byte := BitVec.ofNat 8 (w >>> (8 * k))

/-- The three bytes at and after the opcode for an instruction whose table bits are `w`: bits above `nbits` are 0. -/
def tableBytes (nbits w : Nat) : List Byte :=
  [byteOf (w % 2 ^ nbits) 0, byteOf (w % 2 ^ nbits) 1, byteOf (w % 2 ^ nbits) 2]

/-- The instruction the decoder reads from an instruction whose bits are `w`, numbered as spec/opcode_table.json
numbers them; `none` where it refuses. -/
def decodeTableWord (nbits w : Nat) : Option Instr :=
  match decode (tableBytes nbits w) with
  | .ok (i, _) => some i
  | .error _ => none

end Sys2Proof
end

