-- ==== Sys2Proof/Machine/State.lean ====
section
/-! DEFINITION. The state of the core as plain data (10_state.md rule R10), its reset value (R23), and the reasons
for which the model itself could stop. -/

namespace Sys2Proof.Machine

/-- Memory `M` as a sparse list of cells in one canonical form: addresses strictly rising, all below 256, and no cell
listed whose value an unlisted address reads as (R22; the form is the model's own, log 9). -/
abbrev Memory := List Host.Cell

/-- What an unlisted address reads as: every cell is 0 at reset (R22, R23; DEDUCED, safe, log 9). -/
abbrev Memory.unlisted : Byte := 0#8

/-- The canonical form of a memory. -/
abbrev Memory.wf (m : Memory) : Prop :=
  m.Pairwise (fun c d => c.1 < d.1) ∧ ∀ c ∈ m, c.1 < Config.memSize ∧ c.2 ≠ Memory.unlisted

/-- The equality flag `fl`: UNSET, TRUE, FALSE (R16). -/
inductive Flag where
  | unset
  | isTrue
  | isFalse
  deriving DecidableEq, Repr

/-- The run state `status`: RUNNING, HALTED, FAULTED (R17). -/
inductive RunStatus where
  | running
  | halted
  | faulted
  deriving DecidableEq, Repr

/-- The fault cause register `cause`: NONE or one of the four faults (R18). -/
inductive Cause where
  | none
  | outOfRange
  | unknownOpcode
  | notImplemented
  | divisionByZero
  deriving DecidableEq, Repr

/-- The kind of an OutOfRange fault: a memory address or a register index (R18, R181). -/
inductive Space where
  | mem
  | reg
  deriving DecidableEq, Repr

/-- The cause-dependent part of `info` (R18): for OutOfRange the kind and the offending address or index, for
UnknownOpcode and NotImplemented the opcode byte, for DivisionByZero the divisor register index. -/
inductive Detail where
  | place (kind : Space) (n : Nat)
  | opcode (op : Byte)
  | divisor (b : Nat)
  deriving DecidableEq, Repr

/-- The fault information register `info`: the pair (`pc` at the fault, detail) (R18, C17). -/
structure FaultInfo where
  pc : Nat
  detail : Detail
  deriving DecidableEq, Repr

/-- What a step can raise: `raise <Exception>(info)` (00_scope.md R5; 60_exceptions.md R180). -/
inductive Exception where
  | outOfRange (kind : Space) (n : Nat)
  | unknownOpcode (op : Byte)
  | notImplemented (op : Byte)
  | divisionByZero (b : Nat)
  deriving DecidableEq, Repr

/-- The complete state of the core, the tuple of R10. -/
structure State where
  /-- `M`: 256 cells of 8 bits (R22). -/
  mem : Memory
  /-- `x`: eight registers of 8 bits, register 7 the stack pointer (R11, R12). -/
  x : Vector Byte 8
  /-- `pc`: a natural number that is never reduced (R14). -/
  pc : Nat
  /-- `fl`: the equality flag (R16). -/
  fl : Flag
  /-- `status`: the run state (R17). -/
  status : RunStatus
  /-- `cause`: written only by a fault, read only by the host (R18). -/
  cause : Cause
  /-- `info`: written only by a fault, read only by the host (R18). -/
  info : Option FaultInfo
  /-- `out`: the values emitted by PRN, in order (R19). -/
  out : List Byte
  deriving DecidableEq, Repr

/-- The state right after reset, every value from R23's table (R210, R211). -/
def State.reset : State where
  mem := []
  x := #v[0, 0, 0, 0, 0, 0, 0, Config.spInit]
  pc := Config.pcInit
  fl := .unset
  status := .running
  cause := .none
  info := .none
  out := []

/-- The reasons for which a step of the MODEL stops with a fault: there are none, so the type has no constructor. Each
of the hardware's four faults has an entry the spec describes (R186), and the model takes it as a next state whose
`status` is FAULTED (DEDUCED, log 4). Safe: nothing is stopped that the hardware runs. -/
inductive Fault where
  deriving DecidableEq, Repr

/-- The reasons for which a step of the MODEL refuses an instruction. -/
inductive Refusal where
  /-- Raised by `exec` alone, for an instruction that has no meaning in the model yet; no arm of it does so now. Safe: a
  true claim may become unprovable, no false one provable. -/
  | notModelled (mnemonic : String)
  deriving DecidableEq, Repr

end Sys2Proof.Machine
end

