-- ==== Sys2Proof/Machine/Flags.lean ====
section
/-! DEFINITION. The one flag, the equality flag (10_state.md R16): how CMP computes it and how JEQ and JNE test it. -/

namespace Sys2Proof.Machine

/-- FLAG_UNSET_AS_FALSE (00_scope.md R3), at the value the spec takes as the behaviour of the hardware
(43_control_transfer.md R145). DESIGN CHOICE (unsafe, log 1): the spec's default for a point its decision D4 leaves
open; it matters only for a JNE run before any CMP. -/
def flagUnsetAsFalse : Bool := false

/-- The flag CMP writes: TRUE if the two values are equal, else FALSE (41_alu.md R96). -/
def compareFlag (va vb : Byte) : Flag := if va = vb then .isTrue else .isFalse

/-- The test of JEQ: `fl == TRUE` (R143). UNSET fails it under either value of the parameter (R145). -/
def flagIsTrue : Flag → Bool
  | .isTrue => true
  | .isFalse | .unset => false

/-- The test of JNE: `fl == FALSE`, and UNSET too where the parameter treats it so (R144, R145). -/
def flagIsFalse (unsetAsFalse : Bool) : Flag → Bool
  | .isFalse => true
  | .isTrue => false
  | .unset => unsetAsFalse

end Sys2Proof.Machine
end

