-- ==== Sys2Proof/Machine/Operands.lean ====
section
/-! DEFINITION. The operand forms: a register operand, read and written by its whole, unmasked index (10_state.md R13,
00_scope.md R5), and the implicit stack pointer, register 7 (R12). The third form, LDI's immediate, is the byte
itself and needs no accessor (42_data_stack_io.md R120). -/

namespace Sys2Proof.Machine

/-- `x[i]` read: an index of 8 or more raises OutOfRange(reg, i) (R5, R13). -/
def State.readReg (i : Nat) (s : State) : Except Exception Byte :=
  match s.x[i]? with
  | some v => .ok v
  | none => .error (.outOfRange .reg i)

/-- `x[i] <- v`: an index of 8 or more raises OutOfRange(reg, i) (R5, R13). -/
def State.writeReg (i : Nat) (v : Byte) (s : State) : Except Exception State :=
  if h : i < 8 then .ok { s with x := s.x.set i v h } else .error (.outOfRange .reg i)

/-- `if i > 7: raise OutOfRange(reg, i)`: the index test that PUSH, POP and CALL make before their first write
(42_data_stack_io.md R124, R125; 43_control_transfer.md R140). -/
def checkReg (i : Nat) : Except Exception Unit :=
  if i < 8 then .ok () else .error (.outOfRange .reg i)

/-- The stack pointer: register 7 (R12). -/
def State.sp (s : State) : Byte := s.x[7]

/-- A write of the stack pointer: register 7 (R12). -/
def State.setSp (v : Byte) (s : State) : State := { s with x := s.x.set 7 v }

end Sys2Proof.Machine
end

