-- ==== Sys2Proof/Machine/Ops.lean ====
section
/-! DEFINITION. The named operations over memory, the stack, the program counter and the output trace, and taking a
fault. A meaning computes an `Except Exception State`, the writes of the step or what it raises, and ends in
`complete`, which discards the writes of a step that raises (40_execution_cycle.md R74, 60_exceptions.md R186). -/

namespace Sys2Proof.Machine

/-! ## Memory -/

/-- The raw cell `M[a]` (R5): the listed byte, or what an unlisted address reads as. -/
def Memory.read : Memory → Nat → Byte
  | [], _ => Memory.unlisted
  | (k, w) :: m, a => if k = a then w else Memory.read m a

/-- The memory with the cell `a` set to `v`, in canonical form. -/
def Memory.write : Memory → Nat → Byte → Memory
  | [], a, v => if v = Memory.unlisted then [] else [(a, v)]
  | (k, w) :: m, a, v =>
    if a < k then
      if v = Memory.unlisted then (k, w) :: m else (a, v) :: (k, w) :: m
    else if a = k then
      if v = Memory.unlisted then m else (a, v) :: m
    else (k, w) :: Memory.write m a v

/-- `MemRead(a, 1)`: an address above 255 raises OutOfRange(mem, a), and no address wraps (20_memory.md R30). -/
def State.memRead (a : Nat) (s : State) : Except Exception Byte :=
  if a < Config.memSize then .ok (Memory.read s.mem a) else .error (.outOfRange .mem a)

/-- `MemWrite(a, 1, v)`: an address above 255 raises OutOfRange(mem, a), and no address wraps (20_memory.md R30). -/
def State.memWrite (a : Nat) (v : Byte) (s : State) : Except Exception State :=
  if a < Config.memSize then .ok { s with mem := Memory.write s.mem a v } else .error (.outOfRange .mem a)

/-! ## Program counter, flag, output, run state -/

/-- `pc <- t` (R14): never reduced. -/
def State.setPc (t : Nat) (s : State) : State := { s with pc := t }

/-- `pc <- next` for an instruction of `len` bytes: natural-number addition, no wrap (40_execution_cycle.md R72). -/
def State.advance (len : Nat) (s : State) : State := s.setPc (s.pc + len)

/-- `fl <- v` (R16). -/
def State.setFlag (v : Flag) (s : State) : State := { s with fl := v }

/-- `out <- out ++ [v]` (R19). -/
def State.emit (v : Byte) (s : State) : State := { s with out := s.out ++ [v] }

/-- `status <- HALTED` (R17, 40_execution_cycle.md R76). -/
def State.halt (s : State) : State := { s with status := .halted }

/-! ## The stack -/

/-- The address a push stores to: the decremented stack pointer, which wraps from 0 to 255 (42_data_stack_io.md R121). -/
def State.pushAddress (s : State) : Nat := (wrap (s.sp.toNat + 255)).toNat

/-- The first half of a push: `x[7] <- (x[7] + 255) mod 256` (R121, R124). -/
def State.decrementSp (s : State) : State := s.setSp (wrap (s.sp.toNat + 255))

/-- The second half of a pop: `x[7] <- (x[7] + 1) mod 256` (R122, R125). -/
def State.incrementSp (s : State) : State := s.setSp (wrap (s.sp.toNat + 1))

/-- PushVal(v): decrement the stack pointer, then write at it (R121). -/
def State.pushVal (v : Byte) (s : State) : Except Exception State :=
  s.decrementSp.memWrite s.decrementSp.sp.toNat v

/-- PopVal(): read at the stack pointer, then increment it; the cell keeps its value (R122). -/
def State.popVal (s : State) : Except Exception (Byte × State) := do
  let v ← s.memRead s.sp.toNat
  .ok (v, s.incrementSp)

/-! ## Taking a fault -/

/-- The cause register's value for a raised exception (R180 to R184). -/
def Exception.cause : Exception → Cause
  | .outOfRange _ _ => .outOfRange
  | .unknownOpcode _ => .unknownOpcode
  | .notImplemented _ => .notImplemented
  | .divisionByZero _ => .divisionByZero

/-- The cause-dependent part of `info` for a raised exception (R18, R181 to R184). -/
def Exception.detail : Exception → Detail
  | .outOfRange kind n => .place kind n
  | .unknownOpcode op => .opcode op
  | .notImplemented op => .opcode op
  | .divisionByZero b => .divisor b

/-- The cause codes (R18, the spec's decision D25): not architectural for a program, read by the host. -/
def Cause.code : Cause → Nat
  | .none => 0
  | .outOfRange => 1
  | .unknownOpcode => 2
  | .notImplemented => 3
  | .divisionByZero => 4

/-- The suggested encoding of the run state, not architectural (R17). -/
def RunStatus.code : RunStatus → Nat
  | .running => 0
  | .halted => 1
  | .faulted => 2

/-- Fault entry: `status <- FAULTED ; cause <- E ; info <- (pc, i)` and nothing else (60_exceptions.md R186). There is
no return beside it: nothing resumes a FAULTED core and no instruction returns from a fault (R189). -/
def State.takeFault (e : Exception) (s : State) : State :=
  { s with status := .faulted, cause := e.cause, info := some ⟨s.pc, e.detail⟩ }

/-- The end of a step from `s`: its writes, or, where it raised, `s` with the fault taken and every write of the step
discarded (40_execution_cycle.md R74, R186). -/
def complete (s : State) : Except Exception State → Host.Outcome State Fault Refusal
  | .ok t => .next t
  | .error e => .next (s.takeFault e)

/-- A handler's effect followed by `pc <- next` for an instruction of `len` bytes (40_execution_cycle.md R73). -/
def thenAdvance (len : Nat) (effect : Except Exception State) : Except Exception State := do
  let t ← effect
  .ok (t.advance len)

end Sys2Proof.Machine
end

