-- ==== Sys2Proof/Machine/Alu.lean ====
section
/-! DEFINITION. The seven executable ALU operations (41_alu.md R90 to R96, R104 to R106): for each its effect in place
on the register file or the flag, `<op>Effect`, and its meaning, that effect with the pc update. The register
reads come first, `a` before `b`, so that an out-of-range index faults before any write (R104). -/

namespace Sys2Proof.Machine

/-- A two-register operation: read `x[a]`, read `x[b]`, store the result in `x[a]` (R104). -/
def twoRegister (f : Byte → Byte → Byte) (a b : Nat) (s : State) : Except Exception State := do
  let va ← s.readReg a
  let vb ← s.readReg b
  s.writeReg a (f va vb)

/-- A one-register operation: read `x[a]`, store the result in `x[a]`; `b` is never examined (R104). -/
def oneRegister (f : Byte → Byte) (a : Nat) (s : State) : Except Exception State := do
  let va ← s.readReg a
  s.writeReg a (f va)

/-- `(va + vb) mod 256` (R90). -/
def addValue (va vb : Byte) : Byte := wrap (va.toNat + vb.toNat)

/-- `(va * vb) mod 256` (R91). -/
def mulValue (va vb : Byte) : Byte := wrap (va.toNat * vb.toNat)

/-- `floor(va / vb)`, used with `vb` not 0 (R92). -/
def divValue (va vb : Byte) : Byte := wrap (va.toNat / vb.toNat)

/-- `(va + 1) mod 256` (R93). -/
def incValue (va : Byte) : Byte := wrap (va.toNat + 1)

/-- `(va + 255) mod 256`, that is `va - 1` with 0 becoming 255 (R94). -/
def decValue (va : Byte) : Byte := wrap (va.toNat + 255)

/-- `va & vb`, bit by bit (R95). -/
def andValue (va vb : Byte) : Byte := va &&& vb

/-- ADD: "reg[a] += reg[b]" (R90). -/
def addEffect (a b : Nat) (s : State) : Except Exception State := twoRegister addValue a b s

/-- MUL: "reg[a] *= reg[b]" (R91). -/
def mulEffect (a b : Nat) (s : State) : Except Exception State := twoRegister mulValue a b s

/-- DIV: "reg[a] = reg[a] / reg[b]"; after both indices are found in range, a zero divisor raises DivisionByZero(b)
(R92, R104). -/
def divEffect (a b : Nat) (s : State) : Except Exception State := do
  let va ← s.readReg a
  let vb ← s.readReg b
  if vb = 0#8 then .error (.divisionByZero b) else s.writeReg a (divValue va vb)

/-- INC: "reg[a] += 1" (R93). -/
def incEffect (a : Nat) (s : State) : Except Exception State := oneRegister incValue a s

/-- DEC: "reg[a] -= 1" (R94). -/
def decEffect (a : Nat) (s : State) : Except Exception State := oneRegister decValue a s

/-- AND: bitwise AND of `reg[a]` and `reg[b]` into `reg[a]` (R95). -/
def andEffect (a b : Nat) (s : State) : Except Exception State := twoRegister andValue a b s

/-- CMP: the flag becomes TRUE or FALSE; no register changes (R96). -/
def cmpEffect (a b : Nat) (s : State) : Except Exception State := do
  let va ← s.readReg a
  let vb ← s.readReg b
  .ok (s.setFlag (compareFlag va vb))

/-- ADD Ra,Rb (R90). -/
def execAdd (a b : Nat) (s : State) : Host.Outcome State Fault Refusal :=
  complete s (thenAdvance 3 (addEffect a b s))

/-- MUL Ra,Rb (R91). -/
def execMul (a b : Nat) (s : State) : Host.Outcome State Fault Refusal :=
  complete s (thenAdvance 3 (mulEffect a b s))

/-- DIV Ra,Rb (R92). -/
def execDiv (a b : Nat) (s : State) : Host.Outcome State Fault Refusal :=
  complete s (thenAdvance 3 (divEffect a b s))

/-- INC Ra (R93). -/
def execInc (a : Nat) (s : State) : Host.Outcome State Fault Refusal :=
  complete s (thenAdvance 2 (incEffect a s))

/-- DEC Ra (R94). -/
def execDec (a : Nat) (s : State) : Host.Outcome State Fault Refusal :=
  complete s (thenAdvance 2 (decEffect a s))

/-- AND Ra,Rb (R95). -/
def execAnd (a b : Nat) (s : State) : Host.Outcome State Fault Refusal :=
  complete s (thenAdvance 3 (andEffect a b s))

/-- CMP Ra,Rb (R96). -/
def execCmp (a b : Nat) (s : State) : Host.Outcome State Fault Refusal :=
  complete s (thenAdvance 3 (cmpEffect a b s))

end Sys2Proof.Machine
end

