-- ==== Sys2Proof/Machine/Control.lean ====
section
/-! DEFINITION. The halt instruction (40_execution_cycle.md R76) and the five handlers that write the program counter
themselves, on every path (43_control_transfer.md R140 to R146). A target is an absolute address, an 8-bit value
widened to the program counter. -/

namespace Sys2Proof.Machine

/-- The jump to the address in `x[a]`: `pc <- zext_9(x[a])` (R142, R146). -/
def jumpTo (a : Nat) (s : State) : Except Exception State := do
  let v ← s.readReg a
  .ok (s.setPc v.toNat)

/-- CALL: the index test, the push of `pc + 2`, then the jump to `x[a]` as it is after the push (R140, D10, D17). From
an address that a fetch allows `pc + 2` fits a byte; above it the byte is its low 8 bits (DESIGN CHOICE, log 6). -/
def callEffect (a : Nat) (s : State) : Except Exception State := do
  checkReg a
  let t ← s.pushVal (wrap (s.pc + 2))
  jumpTo a t

/-- RET: "pop the return address into PC" (R141). -/
def retEffect (s : State) : Except Exception State := do
  let (v, t) ← s.popVal
  .ok (t.setPc v.toNat)

/-- JMP: "PC = reg[reg]" (R142). -/
def jmpEffect (a : Nat) (s : State) : Except Exception State := jumpTo a s

/-- JEQ: jump if the flag is TRUE, else `pc + 2` with `a` not examined (R143). -/
def jeqEffect (a : Nat) (s : State) : Except Exception State :=
  if flagIsTrue s.fl then jumpTo a s else .ok (s.setPc (s.pc + 2))

/-- JNE under a value of FLAG_UNSET_AS_FALSE: jump if the flag is FALSE, else `pc + 2` with `a` not examined (R144, R145). -/
def jneEffect (unsetAsFalse : Bool) (a : Nat) (s : State) : Except Exception State :=
  if flagIsFalse unsetAsFalse s.fl then jumpTo a s else .ok (s.setPc (s.pc + 2))

/-- HLT (R76): `status <- HALTED ; pc <- pc + 1`. PRESUMED (unsafe, log 2): the length 1, its operand count of 0 being the spec's
decision D24. -/
def execHlt (s : State) : Host.Outcome State Fault Refusal :=
  complete s (thenAdvance 1 (.ok s.halt))

/-- CALL Ra (R140). -/
def execCall (a : Nat) (s : State) : Host.Outcome State Fault Refusal := complete s (callEffect a s)

/-- RET (R141). -/
def execRet (s : State) : Host.Outcome State Fault Refusal := complete s (retEffect s)

/-- JMP Ra (R142). -/
def execJmp (a : Nat) (s : State) : Host.Outcome State Fault Refusal := complete s (jmpEffect a s)

/-- JEQ Ra (R143). -/
def execJeq (a : Nat) (s : State) : Host.Outcome State Fault Refusal := complete s (jeqEffect a s)

/-- JNE Ra (R144), with the parameter at the spec's default (R145). -/
def execJne (a : Nat) (s : State) : Host.Outcome State Fault Refusal :=
  complete s (jneEffect flagUnsetAsFalse a s)

end Sys2Proof.Machine
end

