-- ==== Sys2Proof/Machine/DataStackIo.lean ====
section
/-! DEFINITION. Load-immediate, print and the stack instructions (42_data_stack_io.md R120 to R125). -/

namespace Sys2Proof.Machine

/-- LDI: "reg[reg] = value" (R120). -/
def ldiEffect (a : Nat) (imm : Byte) (s : State) : Except Exception State := s.writeReg a imm

/-- PRN: emit the register's value; no other state changes (R123). -/
def prnEffect (a : Nat) (s : State) : Except Exception State := do
  let v ← s.readReg a
  .ok (s.emit v)

/-- PUSH: the index test, the decrement, then the write of `x[a]` as it is after the decrement (R124, D10, D17). -/
def pushEffect (a : Nat) (s : State) : Except Exception State := do
  checkReg a
  let v ← s.decrementSp.readReg a
  s.pushVal v

/-- POP: the index test, the register write, then the increment (R125, D10, D17). -/
def popEffect (a : Nat) (s : State) : Except Exception State := do
  checkReg a
  let v ← s.memRead s.sp.toNat
  let t ← s.writeReg a v
  .ok t.incrementSp

/-- LDI Ra,imm (R120). -/
def execLdi (a : Nat) (imm : Byte) (s : State) : Host.Outcome State Fault Refusal :=
  complete s (thenAdvance 3 (ldiEffect a imm s))

/-- PRN Ra (R123). -/
def execPrn (a : Nat) (s : State) : Host.Outcome State Fault Refusal :=
  complete s (thenAdvance 2 (prnEffect a s))

/-- PUSH Ra (R124). -/
def execPush (a : Nat) (s : State) : Host.Outcome State Fault Refusal :=
  complete s (thenAdvance 2 (pushEffect a s))

/-- POP Ra (R125). -/
def execPop (a : Nat) (s : State) : Host.Outcome State Fault Refusal :=
  complete s (thenAdvance 2 (popEffect a s))

end Sys2Proof.Machine
end

