-- ==== Sys2Proof/Machine/Unimplemented.lean ====
section
/-! DEFINITION. The seventeen recognised instructions that cannot execute: each takes the fault NotImplemented with its
opcode byte, whatever its operands, which are never examined (41_alu.md R97 to R103, 44_unimplemented.md R160 to
R170, 60_exceptions.md R183). The spec gives them no other meaning, and forbids a model to (R170, U10). -/

namespace Sys2Proof.Machine

/-- `raise NotImplemented(op)` for the opcode byte of the identity (R170, R183). -/
def raiseNotImplemented (m : Mnemonic) (s : State) : Host.Outcome State Fault Refusal :=
  complete s (.error (.notImplemented m.opcode))

/-- SUB Ra,Rb: NotImplemented, always (R97). -/
def execSub (_a _b : Nat) (s : State) : Host.Outcome State Fault Refusal := raiseNotImplemented .sub s

/-- MOD Ra,Rb: NotImplemented, always (R98). -/
def execMod (_a _b : Nat) (s : State) : Host.Outcome State Fault Refusal := raiseNotImplemented .mod s

/-- NOT Ra: NotImplemented, always (R99). -/
def execNot (_a : Nat) (s : State) : Host.Outcome State Fault Refusal := raiseNotImplemented .not s

/-- OR Ra,Rb: NotImplemented, always (R100). -/
def execOr (_a _b : Nat) (s : State) : Host.Outcome State Fault Refusal := raiseNotImplemented .or s

/-- XOR Ra,Rb: NotImplemented, always (R101). -/
def execXor (_a _b : Nat) (s : State) : Host.Outcome State Fault Refusal := raiseNotImplemented .xor s

/-- SHL Ra,Rb: NotImplemented, always (R102). -/
def execShl (_a _b : Nat) (s : State) : Host.Outcome State Fault Refusal := raiseNotImplemented .shl s

/-- SHR Ra,Rb: NotImplemented, always (R103). -/
def execShr (_a _b : Nat) (s : State) : Host.Outcome State Fault Refusal := raiseNotImplemented .shr s

/-- NOP: NotImplemented, always (R160). -/
def execNop (s : State) : Host.Outcome State Fault Refusal := raiseNotImplemented .nop s

/-- LD Ra,Rb: NotImplemented, always (R161). -/
def execLd (_a _b : Nat) (s : State) : Host.Outcome State Fault Refusal := raiseNotImplemented .ld s

/-- ST Ra,Rb: NotImplemented, always (R162). -/
def execSt (_a _b : Nat) (s : State) : Host.Outcome State Fault Refusal := raiseNotImplemented .st s

/-- PRA Ra: NotImplemented, always (R163). -/
def execPra (_a : Nat) (s : State) : Host.Outcome State Fault Refusal := raiseNotImplemented .pra s

/-- INT Ra: NotImplemented, always (R164). -/
def execInt (_a : Nat) (s : State) : Host.Outcome State Fault Refusal := raiseNotImplemented .int s

/-- IRET: NotImplemented, always (R165). -/
def execIret (s : State) : Host.Outcome State Fault Refusal := raiseNotImplemented .iret s

/-- JGT Ra: NotImplemented, always (R166). -/
def execJgt (_a : Nat) (s : State) : Host.Outcome State Fault Refusal := raiseNotImplemented .jgt s

/-- JLT Ra: NotImplemented, always (R167). -/
def execJlt (_a : Nat) (s : State) : Host.Outcome State Fault Refusal := raiseNotImplemented .jlt s

/-- JLE Ra: NotImplemented, always (R168). -/
def execJle (_a : Nat) (s : State) : Host.Outcome State Fault Refusal := raiseNotImplemented .jle s

/-- JGE Ra: NotImplemented, always (R169). -/
def execJge (_a : Nat) (s : State) : Host.Outcome State Fault Refusal := raiseNotImplemented .jge s

end Sys2Proof.Machine
end

