-- ==== Sys2Proof/Machine/Fetch.lean ====
section
/-! DEFINITION. Actions 1 and 2 of a step: fetch and decode the opcode byte, then read both following bytes
(40_execution_cycle.md R70, R71). -/

namespace Sys2Proof.Machine

/-- Action 1 in a given opcode table: the byte at `pc` and its identity; UnknownOpcode is raised before any operand byte
is read (R70). -/
def State.fetchOpcode (table : OpcodeTable) (s : State) : Except Exception (Byte × Mnemonic) := do
  let op ← s.memRead s.pc
  match decodeOpcodeIn table op with
  | none => .error (.unknownOpcode op)
  | some m => .ok (op, m)

/-- Action 2: both bytes after the opcode, read in this order whatever the operand count, so that an instruction at 254
or 255 raises OutOfRange (R71, the spec's decision D8). -/
def State.fetchOperands (s : State) : Except Exception (Byte × Byte) := do
  let a ← s.memRead (s.pc + 1)
  let b ← s.memRead (s.pc + 2)
  .ok (a, b)

/-- Actions 1 and 2 with the default table: the instruction at `pc`. -/
def State.fetch (s : State) : Except Exception Instr := do
  let (_, m) ← s.fetchOpcode opcodeTable
  let (a, b) ← s.fetchOperands
  .ok (assemble m a b)

end Sys2Proof.Machine
end

