-- ==== Sys2Proof/Machine/Step.lean ====
section
/-! DEFINITION. The step function (40_execution_cycle.md R74). -/

namespace Sys2Proof.Machine

/-- One step: while RUNNING, fetch the instruction at `pc` and run it, or take the fault the fetch raised (R70, R71, R74).
HALTED and FAULTED are absorbing: the core takes no step, so the state stays as it is (R17, R189; DESIGN CHOICE in that
the model answers the same state and not a stop, log 3). -/
def step (s : State) : Host.Outcome State Fault Refusal :=
  match s.status with
  | .running =>
    match s.fetch with
    | .ok i => exec i s
    | .error e => complete s (.error e)
  | .halted | .faulted => .next s

/-- `s` with the instruction whose table bits are `w` stored where `step` fetches next: its three bytes at `pc`, the core
RUNNING, and `pc` at 0 where it stands at an address no instruction can execute at (R71). It stands for the host's
image load (70_reset_and_hazards.md R214; log 8). -/
def State.withFetchWord (s : State) (nbits w : Nat) : State :=
  let at_ := if s.pc ≤ 253 then s.pc else 0
  let m := Memory.write s.mem at_ (byteOf (w % 2 ^ nbits) 0)
  let m := Memory.write m (at_ + 1) (byteOf (w % 2 ^ nbits) 1)
  let m := Memory.write m (at_ + 2) (byteOf (w % 2 ^ nbits) 2)
  { s with mem := m, pc := at_, status := .running }

end Sys2Proof.Machine
end

