-- ==== Sys2Proof/Machine/Cycle.lean ====
section
/-! DEFINITION. The four-action cycle of 40_execution_cycle.md R70 to R74 word for word, as the source gives it: dispatch
on the identity and on the bits `alu` and `setpc` of the opcode byte (30_encoding.md R52), with the opcode table and
the unset-flag policy as arguments (00_scope.md R3). `step` runs whole instruction rules instead, which R73 allows;
that the two agree is a statement of its own. -/

namespace Sys2Proof.Machine

/-- The ALU's `apply(operation, reg_a_index, reg_b_index)`: it receives both operand bytes always (R73), and any identity
it has no implementation for raises NotImplemented (41_alu.md section 2, R107). -/
def aluApply (m : Mnemonic) (op a b : Byte) (s : State) : Except Exception State :=
  match m with
  | .add => addEffect a.toNat b.toNat s
  | .mul => mulEffect a.toNat b.toNat s
  | .div => divEffect a.toNat b.toNat s
  | .inc => incEffect a.toNat s
  | .dec => decEffect a.toNat s
  | .and => andEffect a.toNat b.toNat s
  | .cmp => cmpEffect a.toNat b.toNat s
  | _ => .error (.notImplemented op)

/-- The Instruction Executor's table: the nine handlers, and NotImplemented for an identity that has none (R73, R170). -/
def handlerApply (unsetAsFalse : Bool) (m : Mnemonic) (op a b : Byte) (s : State) : Except Exception State :=
  match m with
  | .ldi => ldiEffect a.toNat b s
  | .prn => prnEffect a.toNat s
  | .push => pushEffect a.toNat s
  | .pop => popEffect a.toNat s
  | .call => callEffect a.toNat s
  | .ret => retEffect s
  | .jmp => jmpEffect a.toNat s
  | .jeq => jeqEffect a.toNat s
  | .jne => jneEffect unsetAsFalse a.toNat s
  | _ => .error (.notImplemented op)

/-- Action 4, dispatch: the halt test, the ALU branch, the handler branch, in this order (R73). -/
def dispatch (unsetAsFalse : Bool) (m : Mnemonic) (op a b : Byte) (next : Nat) (s : State) : Except Exception State :=
  if m = .hlt then .ok (s.halt.setPc next)
  else if opAlu op then do
    let t ← aluApply m op a b s
    .ok (t.setPc next)
  else do
    let t ← handlerApply unsetAsFalse m op a b s
    .ok (if opSetpc op then t else t.setPc next)

/-- The four actions in one piece; `next = pc + cnt + 1` (R72, R74). -/
def cycleActions (table : OpcodeTable) (unsetAsFalse : Bool) (s : State) : Except Exception State := do
  let (op, m) ← s.fetchOpcode table
  let (a, b) ← s.fetchOperands
  dispatch unsetAsFalse m op a b (s.pc + opCnt op + 1) s

/-- The cycle of a RUNNING core with its fault rule (R74, R186). -/
def cycle (table : OpcodeTable) (unsetAsFalse : Bool) (s : State) : State :=
  match cycleActions table unsetAsFalse s with
  | .ok t => t
  | .error e => s.takeFault e

end Sys2Proof.Machine
end

