-- ==== Sys2Proof/Machine/Loader.lean ====
section
/-! DEFINITION. The host's image load: the bytes of an image into memory between reset and the first step
(70_reset_and_hazards.md R214), and the textual image format (R215). The spec keeps the Loader outside the core
(00_scope.md R2 (a)); it is modelled because its rules are given. -/

namespace Sys2Proof.Machine

/-- What one line of an image file is (R215): skipped, one byte, or malformed. -/
inductive ImageLine where
  | skipped
  | byte (v : Byte)
  | malformed
  deriving DecidableEq, Repr

/-- Why an image is refused at load time (60_exceptions.md R185): the number of the offending line, counted from 1, or
the write outside memory that the 257th byte meets. No cause code stands for either: no run starts. -/
inductive LoadError where
  | line (n : Nat)
  | outOfRange (a : Nat)
  deriving DecidableEq, Repr

/-- The value of a string of binary digits, the leftmost the most significant; `none` where another character stands. -/
def binaryValue : List Char → Nat → Option Nat
  | [], acc => some acc
  | '0' :: cs, acc => binaryValue cs (2 * acc)
  | '1' :: cs, acc => binaryValue cs (2 * acc + 1)
  | _ :: _, _ => none

/-- The characters without white space at either end. -/
def trimLine (cs : List Char) : List Char :=
  ((cs.dropWhile Char.isWhitespace).reverse.dropWhile Char.isWhitespace).reverse

/-- One line of an image file: only the portion before `#` is parsed; blank, comment-only, or eight binary digits (R215).
DESIGN CHOICE (log 7): white space around the digits is no part of them. -/
def parseLine (line : List Char) : ImageLine :=
  match trimLine (line.takeWhile (· != '#')) with
  | [] => .skipped
  | cs =>
    if cs.length = 8 then
      match binaryValue cs 0 with
      | some n => .byte (wrap n)
      | none => .malformed
    else .malformed

/-- The image of the lines from line number `n` on, or the first malformed line (R215). -/
def parseLines : Nat → List (List Char) → Except LoadError (List Byte)
  | _, [] => .ok []
  | n, line :: rest =>
    match parseLine line with
    | .malformed => .error (.line n)
    | .skipped => parseLines (n + 1) rest
    | .byte v => do
      let bytes ← parseLines (n + 1) rest
      .ok (v :: bytes)

/-- The image of a whole image file (R215). -/
def parseImage (lines : List (List Char)) : Except LoadError (List Byte) := parseLines 1 lines

/-- The bytes stored "at sequentially increasing addresses" from `start`, each through MemWrite (20_memory.md R43, R214). -/
def State.storeFrom : Nat → List Byte → State → Except LoadError State
  | _, [], s => .ok s
  | start, v :: rest, s =>
    match s.memWrite start v with
    | .ok t => State.storeFrom (start + 1) rest t
    | .error _ => .error (.outOfRange start)

/-- The launch state of an image: the reset state with byte number i of the image in `M[i]`; an image of more than 256
bytes is refused (R214, R185). -/
def launch (image : List Byte) : Except LoadError State := State.storeFrom 0 image State.reset

/-- The launch state of an image file (R214, R215). DESIGN CHOICE (log 7): every line is parsed before the first byte is stored, so
a file that has both a malformed line and more than 256 bytes is refused for the malformed line, wherever it stands; the
spec gives the two refusals no order (60_exceptions.md R185). -/
def launchFile (lines : List (List Char)) : Except LoadError State := do
  let image ← parseImage lines
  launch image

end Sys2Proof.Machine
end

