-- ==== Sys2Proof/Machine/HostPort.lean ====
section
/-! DEFINITION. The other event-level interfaces of the block (70_reset_and_hazards.md R219): reset, run, status and
output. Image load is in Loader.lean. -/

namespace Sys2Proof.Machine

/-- The reset event: every piece of state takes its reset value and none survives (R210). -/
def resetEvent (_s : State) : State := State.reset

/-- How a run ended and what it produced: the result of `run()` (40_execution_cycle.md R75, R219 rows status and output). -/
inductive RunEnd where
  | halted (out : List Byte)
  | faulted (cause : Cause) (info : Option FaultInfo) (out : List Byte)
  deriving DecidableEq, Repr

/-- The output trace of an ended run (R75: "the ordered sequence of PRN outputs"). -/
def RunEnd.output : RunEnd → List Byte
  | .halted out => out
  | .faulted _ _ out => out

/-- What the host reads of a state: nothing while the core runs, else how the run ended (R17, R18, R19). -/
def State.runEnd (s : State) : Option RunEnd :=
  match s.status with
  | .running => none
  | .halted => some (.halted s.out)
  | .faulted => some (.faulted s.cause s.info s.out)

/-- The run under fuel: step for as long as `status` is RUNNING (R75). `none` is only the model's fuel running out, which
says nothing of the hardware (R198). -/
def run : Nat → State → Option RunEnd
  | 0, s => s.runEnd
  | fuel + 1, s =>
    match s.runEnd with
    | some r => some r
    | none =>
      match step s with
      | .next t => run fuel t
      | .fault _ | .refused _ => none

end Sys2Proof.Machine
end

