-- ==== Sys2Proof/Safety.lean ====
section
/-! DEFINITION. What claims call a good state and a good step: the invariant of the machine, the fault record, and what
an instruction leaves alone. -/

namespace Sys2Proof

open Machine

/-- The detail that belongs with a cause (10_state.md R18): NONE has none. -/
def detailFits : Cause → Detail → Bool
  | .outOfRange, .place _ _ => true
  | .unknownOpcode, .opcode _ => true
  | .notImplemented, .opcode _ => true
  | .divisionByZero, .divisor _ => true
  | _, _ => false

/-- `cause` and `info` agree with `status`: written by a fault and only then, naming the faulting `pc`, which a fault leaves
in place (R18; 60_exceptions.md R186, R188). -/
def faultRecordOk (s : State) : Bool :=
  match s.status, s.cause, s.info with
  | .running, .none, none => true
  | .halted, .none, none => true
  | .faulted, c, some i => i.pc == s.pc && detailFits c i.detail
  | _, _, _ => false

/-- The invariant: memory is in canonical form within 0..255, `pc` is at most 256 (R14), the fault record agrees. -/
abbrev Inv (s : State) : Prop := Memory.wf s.mem ∧ s.pc ≤ 256 ∧ faultRecordOk s = true

/-- A safe state: the core has not faulted (R17). -/
abbrev Safe (s : State) : Prop := s.status ≠ .faulted

/-- The step about to be taken is a conditional jump that reads the flag UNSET: the source calls such a program incorrect, so
this is a breach of a program's precondition (43_control_transfer.md R145; U2). -/
abbrev ReadsUnset (s : State) : Prop :=
  s.fl = .unset ∧ ∃ a, s.fetch = .ok (.jeq a) ∨ s.fetch = .ok (.jne a)

/-- The registers that only HLT and a fault write are as they were: `status`, `cause`, `info` (R17, R18). -/
abbrev SameControl (s t : State) : Prop := t.status = s.status ∧ t.cause = s.cause ∧ t.info = s.info

/-- From `s` a fault was taken to `t`: `status` FAULTED, a fault record naming `pc`, and nothing else changed (R186). -/
abbrev FaultTaken (s t : State) : Prop :=
  t.status = .faulted ∧ faultRecordOk t = true ∧
    t.mem = s.mem ∧ t.x = s.x ∧ t.pc = s.pc ∧ t.fl = s.fl ∧ t.out = s.out

/-- The state of a core that has faulted in `s` with cause `c` and detail `d`: `status <- FAULTED ; cause <- c ;
info <- (pc, d)` and nothing else (R186). -/
abbrev faultedFrom (s : State) (c : Cause) (d : Detail) : State :=
  { s with status := .faulted, cause := c, info := some ⟨s.pc, d⟩ }

/-- Every byte of memory reads as before. -/
abbrev SameBytes (s t : State) : Prop := ∀ a : Nat, t.memRead a = s.memRead a

end Sys2Proof
end

