-- ==== Sys2Proof/Certificates/Slice0/Obligations.lean ====
section
/-! DEFINITION. The statements for the provers. Each docstring names the rule of spec/ it formalises; where a statement
rests on a decision the spec marks as its own (D<n>), on a derivation it marks so, on its opcode table (R56) or on an
entry of the assumption log, the docstring says so. -/

open Sys2Proof Sys2Proof.Machine

/-! ## Reset, memory, the host's load -/

/-- 10_state.md R23: the value of every piece of state after reset. (`cause` and `info` are state the spec adds, D9, with the reset
values its table gives them.) -/
def Obligations.ResetLeavesTheSpecValues : Prop :=
  (∀ a : Nat, a ≤ 255 → State.reset.memRead a = .ok 0) ∧
  (∀ i : Nat, i ≤ 6 → State.reset.x[i]? = some 0) ∧
  State.reset.x[7] = 0xF4 ∧ State.reset.pc = 0 ∧ State.reset.fl = .unset ∧ State.reset.status = .running ∧
  State.reset.cause = .none ∧ State.reset.info = none ∧ State.reset.out = []

/-- 70_reset_and_hazards.md section 1: a reset leaves the same state whatever was there before, the one of R23; the
invariant of the model holds there. The canonical form of memory is the model's own (log 9, DEDUCED). -/
def Obligations.ResetMeetsTheInvariant : Prop :=
  Inv State.reset ∧ ∀ s : State, resetEvent s = State.reset

/-- The invariant of the model: canonical memory within 0..255, `pc` at most 256 (the derivation R14 marks as the spec's
own), and `cause` and `info` in step with `status` (R18, R186). Kept by every step, from every state that has it. The
canonical form is the model's own (log 9, DEDUCED). -/
def Obligations.EveryStepKeepsTheInvariant : Prop :=
  ∀ s t : State, Inv s → step s = .next t → Inv t

/-- 20_memory.md section 1: the two primitives of R30. Above 255 both raise OutOfRange(mem, addr); within 0..255 a read answers the cell and
a write changes that cell alone. That memory has a canonical form and a write keeps it is the model's own (log 9, DEDUCED). -/
def Obligations.MemoryPrimitivesCheckTheRange : Prop :=
  ∀ (s : State) (a : Nat) (v : Byte), Memory.wf s.mem →
    (255 < a → s.memRead a = .error (.outOfRange .mem a) ∧ s.memWrite a v = .error (.outOfRange .mem a)) ∧
    (a ≤ 255 → s.memRead a = .ok (Memory.read s.mem a) ∧
      ∃ t, s.memWrite a v = .ok t ∧ t.memRead a = .ok v ∧ (∀ b : Nat, b ≠ a → t.memRead b = s.memRead b) ∧
        Memory.wf t.mem ∧ t = { s with mem := t.mem })

/-- Memories in canonical form that read alike at every address of the hardware are equal (10_state.md section 7; the
form is the model's own, log 9, DEDUCED). -/
def Obligations.CanonicalMemoryIsDeterminedByItsCells : Prop :=
  ∀ m n : Memory, Memory.wf m → Memory.wf n → (∀ a : Nat, a ≤ 255 → Memory.read m a = Memory.read n a) → m = n

/-- 70_reset_and_hazards.md section 2: the launch state of an image of at most 256 bytes (R214), and the refusal of a longer one
(60_exceptions.md section 1, R185). That the refusal names the address 256 is the model's choice (log 7, DESIGN CHOICE), the
canonical form of the memory its own (log 9, DEDUCED). -/
def Obligations.LaunchStateHoldsTheImage : Prop :=
  ∀ image : List Byte,
    (image.length ≤ 256 → ∃ t, launch image = .ok t ∧
      (∀ (i : Nat) (h : i < image.length), t.memRead i = .ok image[i]) ∧
      (∀ i : Nat, image.length ≤ i → i ≤ 255 → t.memRead i = .ok 0) ∧
      Memory.wf t.mem ∧ t = { State.reset with mem := t.mem }) ∧
    (256 < image.length → launch image = .error (.outOfRange 256))

/-- 70_reset_and_hazards.md R215: a line of eight binary digits, the leftmost bit 7, with or without a comment after it, is
its byte; a line that is empty or only a comment is skipped. -/
def Obligations.ImageLineOfDigitsIsItsByte : Prop :=
  (∀ (v : Byte) (comment : List Char),
    let digits := (List.range 8).map fun k => if v.getMsbD k then '1' else '0'
    parseLine digits = .byte v ∧ parseLine (digits ++ '#' :: comment) = .byte v) ∧
  parseLine [] = .skipped ∧ ∀ comment : List Char, parseLine ('#' :: comment) = .skipped

/-! ## Decoding and encoding -/

/-- Decoding the bytes of a well-formed instruction, whatever follows them, gives it back with every operand
(30_encoding.md sections 1 to 3; the bytes are the table of R56, log 2). -/
def Obligations.DecodeOfEncodeIsTheInstruction : Prop :=
  ∀ (i : Instr) (rest : List Byte), i.wellFormed = true → decode (encode i ++ rest) = .ok (i, rest)

/-- What the decoder accepts is the encoding of the well-formed instruction it answers, and nothing is skipped
(30_encoding.md sections 1 to 3; the table of R56, log 2). -/
def Obligations.EncodeOfDecodeIsTheBytes : Prop :=
  ∀ (bytes : List Byte) (i : Instr) (rest : List Byte), decode bytes = .ok (i, rest) →
    i.wellFormed = true ∧ encode i ++ rest = bytes

/-- 30_encoding.md section 4: of the 256 opcode bytes 17 are handled, 17 recognised and unhandled, 222 unrecognised. Rests on
the spec's table of R56 (D6, D7, log 2). -/
def Obligations.OpcodeBytesFallInThreeClasses : Prop :=
  let bytes := (List.range 256).map (BitVec.ofNat 8)
  (bytes.filter fun op => (decodeOpcode op).any Mnemonic.handled).length = 17 ∧
  (bytes.filter fun op => (decodeOpcode op).any fun m => !m.handled).length = 17 ∧
  (bytes.filter fun op => (decodeOpcode op).isNone).length = 222

/-- 30_encoding.md R52: the three derived fields of any byte, and, as R52 says of the table of R56, that they agree
with the formats of R50 and the dispatch bits of R55. The bytes are the table's (R56, log 2, PRESUMED); that HLT has
no operand is the spec's decision D24, that INC and DEC have one its derivation. -/
def Obligations.DerivedFieldsAreTakenFromTheByte : Prop :=
  (∀ op : Byte, opCnt op = op.toNat / 64 ∧ opAlu op = op.getLsbD 5 ∧ opSetpc op = op.getLsbD 4) ∧
  (∀ m ∈ [Mnemonic.add, .mul, .div, .and, .cmp], opCnt m.opcode = 2 ∧ opAlu m.opcode = true) ∧
  (∀ m ∈ [Mnemonic.inc, .dec], opCnt m.opcode = 1 ∧ opAlu m.opcode = true) ∧
  (opCnt Mnemonic.ldi.opcode = 2 ∧ opAlu Mnemonic.ldi.opcode = false ∧ opSetpc Mnemonic.ldi.opcode = false) ∧
  (∀ m ∈ [Mnemonic.prn, .push, .pop],
    opCnt m.opcode = 1 ∧ opAlu m.opcode = false ∧ opSetpc m.opcode = false) ∧
  (∀ m ∈ [Mnemonic.call, .jmp, .jeq, .jne],
    opCnt m.opcode = 1 ∧ opAlu m.opcode = false ∧ opSetpc m.opcode = true) ∧
  (opCnt Mnemonic.ret.opcode = 0 ∧ opAlu Mnemonic.ret.opcode = false ∧ opSetpc Mnemonic.ret.opcode = true) ∧
  opCnt Mnemonic.hlt.opcode = 0

/-- Some words written out from the encodings of 30_encoding.md section 3 decode to the instructions they stand for (the
table of R56, log 2). -/
def Obligations.WrittenWordsDecode : Prop :=
  decode [0b00000001#8] = .ok (.hlt, []) ∧
  decode [0b00010001#8] = .ok (.ret, []) ∧
  decode [0b01000101#8, 0b00000011#8] = .ok (.push 3, []) ∧
  decode [0b01010000#8, 0b00000001#8] = .ok (.call 1, []) ∧
  decode [0b10000010#8, 0b00000000#8, 0b00001000#8] = .ok (.ldi 0 8, []) ∧
  decode [0b10100000#8, 0b00000110#8, 0b00000001#8, 0b11111111#8] = .ok (.add 6 1, [0b11111111#8]) ∧
  decode [0b10101101#8, 0b00001001#8, 0b11111111#8] = .ok (.shr 9 255, []) ∧
  decode [0b11000000#8, 0#8, 0#8] = .error (.unknownOpcode 0b11000000#8)

/-! ## The step -/

/-- 40_execution_cycle.md section 1: when the bytes at `pc` decode to an instruction, a RUNNING core's step is that
instruction's meaning at that state; the meaning moves `pc` itself. -/
def Obligations.StepRunsTheDecodedInstruction : Prop :=
  ∀ (s : State) (i : Instr) (rest : List Byte), s.status = .running → s.pc ≤ 253 →
    decode [Memory.read s.mem s.pc, Memory.read s.mem (s.pc + 1), Memory.read s.mem (s.pc + 2)] = .ok (i, rest) →
    step s = exec i s

/-- 60_exceptions.md R182: an opcode byte in no row of the table faults with UnknownOpcode, before the operand bytes are read
(so at 254 and 255 too), and `pc` stays. -/
def Obligations.UnrecognisedByteFaults : Prop :=
  ∀ s : State, s.status = .running → s.pc ≤ 255 → decodeOpcode (Memory.read s.mem s.pc) = none →
    ∃ t, step s = .next t ∧ t.status = .faulted ∧ t.cause = .unknownOpcode ∧ t.cause.code = 2 ∧
      t.info = some ⟨s.pc, .opcode (Memory.read s.mem s.pc)⟩ ∧ t.pc = s.pc

/-- 60_exceptions.md section 1, the cases of OutOfRange that the fetch raises: `pc` above 255, and, for every recognised
opcode, `pc` at 255 or 254. Rests on the spec's decisions D2, D8 and D20. That a fault changes nothing else is the
spec's decision D10 (log 5, DESIGN CHOICE). -/
def Obligations.FetchOutsideMemoryFaults : Prop :=
  ∀ s : State, s.status = .running →
    (256 ≤ s.pc → step s = .next (faultedFrom s .outOfRange (.place .mem s.pc))) ∧
    (s.pc = 254 ∨ s.pc = 255 → (decodeOpcode (Memory.read s.mem s.pc)).isSome →
      step s = .next (faultedFrom s .outOfRange (.place .mem 256)))

/-- 40_execution_cycle.md section 2: the step of whole instruction rules is the literal four-action cycle, which fetches,
computes `next`, and dispatches on the identity and the bits `alu` and `setpc` of the opcode byte. Rests on the table of
R56 (log 2) and on the derivation the spec marks in R74. -/
def Obligations.StepIsTheFourActionCycle : Prop :=
  ∀ s : State, s.status = .running → step s = .next (cycle opcodeTable flagUnsetAsFalse s)

/-- 43_control_transfer.md section 2, on the spec's decision D4 (log 1): in a step that does not read the flag UNSET in a
conditional jump, the two values of FLAG_UNSET_AS_FALSE do the same; where such a jump is a JEQ they do the same too. -/
def Obligations.UnsetPolicyMattersOnlyWhereUnsetIsRead : Prop :=
  ∀ s : State, s.status = .running →
    (¬ ReadsUnset s → cycle opcodeTable true s = cycle opcodeTable false s) ∧
    ∀ a, s.fetch = .ok (.jeq a) → cycle opcodeTable true s = cycle opcodeTable false s

/-- No state and no instruction stops the model: every step, and every instruction in every state, answers a next state
(60_exceptions.md section 2 gives every fault an entry; log 3, log 4). -/
def Obligations.NothingStopsTheModel : Prop :=
  (∀ s : State, ∃ t, step s = .next t) ∧ ∀ (i : Instr) (s : State), ∃ t, exec i s = .next t

/-- 10_state.md section 5: HALTED and FAULTED are absorbing (the spec's decision D23); that the model answers the same state
for a step that is not taken is log 3. -/
def Obligations.StoppedCoreStaysAsItIs : Prop :=
  ∀ s : State, s.status ≠ .running → step s = .next s

/-- 60_exceptions.md section 2: a step that faults changes `status`, `cause` and `info` only, and `info` names the `pc` it
leaves in place. Rests on the spec's decisions D9 and D10 (log 5). -/
def Obligations.FaultingStepChangesOnlyTheFaultRegisters : Prop :=
  ∀ s t : State, s.status = .running → step s = .next t → t.status = .faulted → FaultTaken s t

/-- 43_control_transfer.md R146 and 90_conflicts.md C15: `pc` leaves 0..255 only by falling through from a three-byte
instruction at 253 (derived by the spec). -/
def Obligations.ProgramCounterLeavesMemoryOnlyFrom253 : Prop :=
  ∀ s t : State, s.status = .running → s.pc ≤ 255 → step s = .next t → 256 ≤ t.pc →
    s.pc = 253 ∧ t.pc = 256 ∧ opCnt (Memory.read s.mem 253) = 2

/-! ## Whole-machine rules -/

/-- 10_state.md R19: the output trace is empty at reset, extended only by PRN and then by its register's value, and read by no
instruction: with another trace before it, every instruction does the same and extends that trace instead. -/
def Obligations.OutputTraceIsAppendOnlyAndUnread : Prop :=
  State.reset.out = [] ∧
  (∀ (i : Instr) (s t : State), exec i s = .next t → t.out ≠ s.out →
    ∃ (a : Nat) (v : Byte), i = .prn a ∧ s.x[a]? = some v ∧ t.out = s.out ++ [v]) ∧
  ∀ (i : Instr) (s t : State) (o : List Byte), exec i s = .next t →
    ∃ e : List Byte, t.out = s.out ++ e ∧ exec i { s with out := o } = .next { t with out := o ++ e }

/-- 10_state.md section 5: no instruction can read `cause` or `info`: with other contents in them every instruction does the
same to all the rest of the state. -/
def Obligations.FaultRegistersAreUnread : Prop :=
  ∀ (i : Instr) (s t : State) (c : Cause) (f : Option FaultInfo), exec i s = .next t →
    ∃ u, exec i { s with cause := c, info := f } = .next u ∧
      u.mem = t.mem ∧ u.x = t.x ∧ u.pc = t.pc ∧ u.fl = t.fl ∧ u.status = t.status ∧ u.out = t.out

/-- 10_state.md section 5: an instruction leaves `status` as it is, but for HLT, which sets HALTED, and a fault, which
sets FAULTED; `cause` and `info` are written by a fault only. That a fault changes nothing else is the spec's decision
D10 (log 5, DESIGN CHOICE). -/
def Obligations.StatusIsWrittenOnlyByHaltAndFaults : Prop :=
  ∀ (i : Instr) (s t : State), exec i s = .next t →
    SameControl s t ∨ (i = .hlt ∧ t.status = .halted ∧ t.cause = s.cause ∧ t.info = s.info) ∨ FaultTaken s t

/-- 20_memory.md section 4: the only instructions that change a byte of memory are PUSH and CALL, and the byte is the one at
the decremented stack pointer. -/
def Obligations.MemoryIsWrittenOnlyByPushAndCall : Prop :=
  ∀ (i : Instr) (s t : State) (a : Nat), exec i s = .next t → t.memRead a ≠ s.memRead a →
    (∃ r, i = .push r ∨ i = .call r) ∧ a = s.pushAddress

/-- 60_exceptions.md R184: DivisionByZero is raised by DIV alone, exactly when both register indices are in range and the
divisor register holds 0; `info` is (`pc`, `b`). -/
def Obligations.DivisionByZeroIsRaisedByDivAlone : Prop :=
  ∀ (i : Instr) (s t : State), s.cause = .none → exec i s = .next t →
    (t.cause = .divisionByZero ↔ ∃ a b, i = .div a b ∧ a < 8 ∧ s.x[b]? = some 0) ∧
    ∀ a b, i = .div a b → t.cause = .divisionByZero →
      t.cause.code = 4 ∧ t.status = .faulted ∧ t.info = some ⟨s.pc, .divisor b⟩

/-- 60_exceptions.md section 1 (R183) and 41_alu.md section 3 (R107): NotImplemented is raised for the seventeen recognised opcodes that cannot execute and for no other,
whatever the operands, with `info` (`pc`, `op`); an ALU-class identity the ALU does not know is folded into it.
That JGT, JLT, JLE and JGE are among the recognised is the spec's decision D7 (log 2, PRESUMED), the folding its D11. -/
def Obligations.NotImplementedIsRaisedByTheUnhandledAlone : Prop :=
  (∀ (i : Instr) (s t : State), s.cause = .none → exec i s = .next t →
    (t.cause = .notImplemented ↔ i.mnemonic ∈ [Mnemonic.sub, .mod, .not, .or, .xor, .shl, .shr,
      .nop, .ld, .st, .pra, .int, .iret, .jgt, .jlt, .jle, .jge]) ∧
    (t.cause = .notImplemented →
      t.cause.code = 3 ∧ t.status = .faulted ∧ t.info = some ⟨s.pc, .opcode i.mnemonic.opcode⟩)) ∧
  ∀ (m : Mnemonic) (op a b : Byte) (s : State), m ∉ [Mnemonic.add, .mul, .div, .inc, .dec, .and, .cmp] →
    aluApply m op a b s = .error (.notImplemented op)

/-! ## ALU instructions -/

/-- 41_alu.md section 1: ADD and MUL store the exact sum and product modulo 256 (the spec's decision D1) in the first
register and move on by three; an index of 8 or more faults, the first operand's before the second's (D10, log 5, DESIGN
CHOICE; D20). -/
def Obligations.AddAndMulStoreModulo256 : Prop :=
  ∀ (s : State) (a b : Nat),
    (∀ (ha : a < 8) (hb : b < 8), ∃ v w : Byte,
      v.toNat = (s.x[a].toNat + s.x[b].toNat) % 256 ∧ w.toNat = (s.x[a].toNat * s.x[b].toNat) % 256 ∧
      exec (.add a b) s = .next { s with x := s.x.set a v, pc := s.pc + 3 } ∧
      exec (.mul a b) s = .next { s with x := s.x.set a w, pc := s.pc + 3 }) ∧
    (∀ i ∈ [Instr.add a b, .mul a b],
      (8 ≤ a → exec i s = .next (faultedFrom s .outOfRange (.place .reg a))) ∧
      (a < 8 → 8 ≤ b → exec i s = .next (faultedFrom s .outOfRange (.place .reg b))))

/-- 41_alu.md section 1: DIV stores the floor of the quotient (the spec's decision D3); it faults on an index of 8 or
more, the first operand's before the second's, and then with DivisionByZero on a zero divisor (D10, log 5, DESIGN
CHOICE; D20). -/
def Obligations.DivStoresTheFloorQuotient : Prop :=
  ∀ (s : State) (a b : Nat),
    (∀ (ha : a < 8) (hb : b < 8), s.x[b].toNat ≠ 0 → ∃ v : Byte, v.toNat = s.x[a].toNat / s.x[b].toNat ∧
      exec (.div a b) s = .next { s with x := s.x.set a v, pc := s.pc + 3 }) ∧
    (∀ (_ : a < 8) (hb : b < 8), s.x[b].toNat = 0 →
      exec (.div a b) s = .next (faultedFrom s .divisionByZero (.divisor b))) ∧
    (8 ≤ a → exec (.div a b) s = .next (faultedFrom s .outOfRange (.place .reg a))) ∧
    (a < 8 → 8 ≤ b → exec (.div a b) s = .next (faultedFrom s .outOfRange (.place .reg b)))

/-- 41_alu.md section 1: INC and DEC step the register by one with 255 and 0 wrapping (the spec's decision D1) and
move on by two; an index of 8 or more faults. That a fault changes nothing else is the spec's decision D10 (log 5,
DESIGN CHOICE). That they have one operand, so that `pc` moves by two, is derived by the spec (30_encoding.md section
3; N4). -/
def Obligations.IncAndDecStepTheRegister : Prop :=
  ∀ (s : State) (a : Nat),
    (∀ ha : a < 8, ∃ v w : Byte,
      v.toNat = (if s.x[a].toNat = 255 then 0 else s.x[a].toNat + 1) ∧
      w.toNat = (if s.x[a].toNat = 0 then 255 else s.x[a].toNat - 1) ∧
      exec (.inc a) s = .next { s with x := s.x.set a v, pc := s.pc + 2 } ∧
      exec (.dec a) s = .next { s with x := s.x.set a w, pc := s.pc + 2 }) ∧
    (8 ≤ a → ∀ i ∈ [Instr.inc a, .dec a], exec i s = .next (faultedFrom s .outOfRange (.place .reg a)))

/-- 41_alu.md section 1 (R95): AND, bit by bit; an index of 8 or more faults, the first operand's before the second's (D20). That a
fault changes nothing else is the spec's decision D10 (log 5, DESIGN CHOICE). -/
def Obligations.AndIsBitwise : Prop :=
  ∀ (s : State) (a b : Nat),
    (∀ (ha : a < 8) (hb : b < 8), ∃ v : Byte,
      (∀ k : Nat, k < 8 → v.getLsbD k = (s.x[a].getLsbD k && s.x[b].getLsbD k)) ∧
      exec (.and a b) s = .next { s with x := s.x.set a v, pc := s.pc + 3 }) ∧
    (8 ≤ a → exec (.and a b) s = .next (faultedFrom s .outOfRange (.place .reg a))) ∧
    (a < 8 → 8 ≤ b → exec (.and a b) s = .next (faultedFrom s .outOfRange (.place .reg b)))

/-- 41_alu.md R96: CMP writes TRUE or FALSE and nothing but `fl` and `pc`; an index of 8 or more faults and `fl` keeps
its value; no other instruction writes `fl`, and none ever writes UNSET. That a fault changes nothing else is the spec's
decision D10 (log 5, DESIGN CHOICE). -/
def Obligations.CompareAloneWritesTheFlag : Prop :=
  (∀ (s : State) (a b : Nat),
    (∀ (ha : a < 8) (hb : b < 8), ∃ f : Flag,
      (s.x[a] = s.x[b] → f = .isTrue) ∧ (s.x[a] ≠ s.x[b] → f = .isFalse) ∧
      exec (.cmp a b) s = .next { s with fl := f, pc := s.pc + 3 }) ∧
    (8 ≤ a → exec (.cmp a b) s = .next (faultedFrom s .outOfRange (.place .reg a))) ∧
    (a < 8 → 8 ≤ b → exec (.cmp a b) s = .next (faultedFrom s .outOfRange (.place .reg b)))) ∧
  ∀ (i : Instr) (s t : State), exec i s = .next t → t.fl ≠ s.fl → t.fl ≠ .unset ∧ ∃ a b, i = .cmp a b

/-- 41_alu.md R97 to R103: SUB, MOD, NOT, OR, XOR, SHL and SHR take the fault NotImplemented with their opcode byte (the bytes
are the table's of R56, log 2), whatever their operands, and nothing else changes. -/
def Obligations.UnimplementedAluOperationsFault : Prop :=
  ∀ (s : State) (a b : Nat),
    exec (.sub a b) s = .next (faultedFrom s .notImplemented (.opcode 0xA1)) ∧
    exec (.mod a b) s = .next (faultedFrom s .notImplemented (.opcode 0xA4)) ∧
    exec (.not a) s = .next (faultedFrom s .notImplemented (.opcode 0x69)) ∧
    exec (.or a b) s = .next (faultedFrom s .notImplemented (.opcode 0xAA)) ∧
    exec (.xor a b) s = .next (faultedFrom s .notImplemented (.opcode 0xAB)) ∧
    exec (.shl a b) s = .next (faultedFrom s .notImplemented (.opcode 0xAC)) ∧
    exec (.shr a b) s = .next (faultedFrom s .notImplemented (.opcode 0xAD))

/-! ## Recognised instructions without a handler -/

/-- 44_unimplemented.md R160 to R165: NOP, LD, ST, PRA, INT and IRET take the fault NotImplemented with their opcode byte (the
bytes are the table's of R56, log 2), whatever their operands, and nothing else changes. -/
def Obligations.InstructionsWithoutHandlerFault : Prop :=
  ∀ (s : State) (a b : Nat),
    exec .nop s = .next (faultedFrom s .notImplemented (.opcode 0x00)) ∧
    exec (.ld a b) s = .next (faultedFrom s .notImplemented (.opcode 0x83)) ∧
    exec (.st a b) s = .next (faultedFrom s .notImplemented (.opcode 0x84)) ∧
    exec (.pra a) s = .next (faultedFrom s .notImplemented (.opcode 0x48)) ∧
    exec (.int a) s = .next (faultedFrom s .notImplemented (.opcode 0x52)) ∧
    exec .iret s = .next (faultedFrom s .notImplemented (.opcode 0x13))

/-- 44_unimplemented.md section 2: JGT, JLT, JLE and JGE take the fault NotImplemented. That they are recognised at all is the
spec's decision D7 (log 2). -/
def Obligations.OtherConditionalJumpsFault : Prop :=
  ∀ (s : State) (a : Nat),
    exec (.jgt a) s = .next (faultedFrom s .notImplemented (.opcode 0x57)) ∧
    exec (.jlt a) s = .next (faultedFrom s .notImplemented (.opcode 0x58)) ∧
    exec (.jle a) s = .next (faultedFrom s .notImplemented (.opcode 0x59)) ∧
    exec (.jge a) s = .next (faultedFrom s .notImplemented (.opcode 0x5A))

/-! ## Load-immediate, print and the stack -/

/-- 42_data_stack_io.md section 1 (R120): LDI writes its immediate as it is; an index of 8 or more faults. That the fault changes
nothing else is the spec's decision D10 (log 5, DESIGN CHOICE). -/
def Obligations.LoadImmediateWritesTheByte : Prop :=
  ∀ (s : State) (a : Nat) (imm : Byte),
    (∀ ha : a < 8, exec (.ldi a imm) s = .next { s with x := s.x.set a imm, pc := s.pc + 3 }) ∧
    (8 ≤ a → exec (.ldi a imm) s = .next (faultedFrom s .outOfRange (.place .reg a)))

/-- 42_data_stack_io.md R123: PRN appends its register's value to the output trace; an index of 8 or more faults and
nothing is emitted. That a fault changes nothing else is the spec's decision D10 (log 5, DESIGN CHOICE). -/
def Obligations.PrintEmitsTheRegister : Prop :=
  ∀ (s : State) (a : Nat),
    (∀ ha : a < 8, exec (.prn a) s = .next { s with out := s.out ++ [s.x[a]], pc := s.pc + 2 }) ∧
    (8 ≤ a → exec (.prn a) s = .next (faultedFrom s .outOfRange (.place .reg a)))

/-- 42_data_stack_io.md section 4: PUSH decrements the stack pointer (wrapping, D15), then stores the register as it is
after the decrement (D17) at it; an index of 8 or more faults before anything is written (D10, log 5, DESIGN CHOICE).
The canonical form of memory is the model's own (log 9, DEDUCED). -/
def Obligations.PushStoresBelowTheStackPointer : Prop :=
  ∀ (s : State) (a : Nat), Memory.wf s.mem →
    (∀ ha : a < 8, ∃ (p : Byte) (t : State),
      p.toNat = (s.x[7].toNat + 255) % 256 ∧ exec (.push a) s = .next t ∧
      t.x = s.x.set 7 p ∧ t.memRead p.toNat = .ok (if a = 7 then p else s.x[a]) ∧
      (∀ c : Nat, c ≠ p.toNat → t.memRead c = s.memRead c) ∧
      t = { s with mem := t.mem, x := t.x, pc := s.pc + 2 }) ∧
    (8 ≤ a → exec (.push a) s = .next (faultedFrom s .outOfRange (.place .reg a)))

/-- 42_data_stack_io.md section 4: POP writes the byte at the stack pointer to the register, then increments the stack
pointer (wrapping, D15), so that POP R7 ends at the byte plus one (D17); an index of 8 or more faults (D10, log 5,
DESIGN CHOICE). -/
def Obligations.PopLoadsFromTheStackPointer : Prop :=
  ∀ (s : State) (a : Nat),
    (∀ ha : a < 8, ∃ v p q : Byte,
      s.memRead s.x[7].toNat = .ok v ∧
      p.toNat = (s.x[7].toNat + 1) % 256 ∧ q.toNat = (v.toNat + 1) % 256 ∧
      exec (.pop a) s = .next
        { s with x := if a = 7 then s.x.set 7 q else (s.x.set a v).set 7 p, pc := s.pc + 2 }) ∧
    (8 ≤ a → exec (.pop a) s = .next (faultedFrom s .outOfRange (.place .reg a)))

/-- 42_data_stack_io.md section 4, the stack round trip (derived by the spec): a PUSH r and the POP r' after it, r and
r' in 0..6, executed by two steps, move the value of r to r' and restore the stack pointer, for every stack pointer,
where the pushed cell is not one of the two bytes of the POP. The bytes 0x45 and 0x46 are the table's (log 2). The
canonical form of memory is the model's own (log 9, DEDUCED). -/
def Obligations.PushThenPopMovesTheValue : Prop :=
  ∀ (s : State) (r r' : Nat), r ≤ 6 → r' ≤ 6 → Memory.wf s.mem → s.status = .running → s.pc ≤ 251 →
    s.memRead s.pc = .ok 0x45 → s.memRead (s.pc + 1) = .ok (BitVec.ofNat 8 r) →
    s.memRead (s.pc + 2) = .ok 0x46 → s.memRead (s.pc + 3) = .ok (BitVec.ofNat 8 r') →
    (s.x[7].toNat + 255) % 256 ≠ s.pc + 2 → (s.x[7].toNat + 255) % 256 ≠ s.pc + 3 →
    ∃ t u, step s = .next t ∧ step t = .next u ∧ u.x[r']? = s.x[r]? ∧ u.x[7] = s.x[7] ∧
      (∀ k : Nat, k < 7 → k ≠ r' → u.x[k]? = s.x[k]?) ∧ u.pc = s.pc + 4

/-! ## Control transfer -/

/-- 40_execution_cycle.md R76: HLT sets HALTED and moves `pc` by one, whatever the `alu` and `setpc` bits of its byte
are, and the run ends there with the output emitted so far. That HLT has no operand, so that `pc` moves by one, is the
spec's decision D24 (log 2, PRESUMED); its N2 says that the source does not attest the `pc` after a halt. -/
def Obligations.HaltEndsTheRun : Prop :=
  ∀ s : State,
    exec .hlt s = .next { s with status := .halted, pc := s.pc + 1 } ∧
    (∀ (u : Bool) (op a b : Byte) (next : Nat),
      dispatch u .hlt op a b next s = .ok { s with status := .halted, pc := next }) ∧
    ∀ fuel : Nat, run fuel { s with status := .halted, pc := s.pc + 1 } = some (.halted s.out)

/-- 43_control_transfer.md section 2 (R142): JMP goes to the address in the register, read as an unsigned number; an index of 8 or
more faults. That the fault changes nothing else is the spec's decision D10 (log 5, DESIGN CHOICE). -/
def Obligations.JumpGoesToTheRegister : Prop :=
  ∀ (s : State) (a : Nat),
    (∀ ha : a < 8, exec (.jmp a) s = .next { s with pc := s.x[a].toNat }) ∧
    (8 ≤ a → exec (.jmp a) s = .next (faultedFrom s .outOfRange (.place .reg a)))

/-- 43_control_transfer.md section 2: JEQ jumps when the flag is TRUE, else goes on at `pc + 2` with its operand
unexamined, UNSET included; an index of 8 or more faults only when the jump is taken (the spec's decision D16). That a
fault changes nothing else is the spec's decision D10 (log 5, DESIGN CHOICE). -/
def Obligations.JumpIfEqualTestsTheFlag : Prop :=
  ∀ (s : State) (a : Nat),
    (s.fl = .isTrue → ∀ ha : a < 8, exec (.jeq a) s = .next { s with pc := s.x[a].toNat }) ∧
    (s.fl = .isTrue → 8 ≤ a → exec (.jeq a) s = .next (faultedFrom s .outOfRange (.place .reg a))) ∧
    (s.fl ≠ .isTrue → exec (.jeq a) s = .next { s with pc := s.pc + 2 })

/-- 43_control_transfer.md section 2: JNE jumps when the flag is FALSE and goes on at `pc + 2` when it is TRUE, its
operand then unexamined (D16). On UNSET it does what the parameter FLAG_UNSET_AS_FALSE says (D4, log 1): the statement
holds for either value of it. That a fault changes nothing else is the spec's decision D10 (log 5, DESIGN CHOICE). -/
def Obligations.JumpIfNotEqualTestsTheFlag : Prop :=
  ∀ (s : State) (a : Nat),
    let taken := s.fl = .isFalse ∨ (s.fl = .unset ∧ flagUnsetAsFalse = true)
    (taken → ∀ ha : a < 8, exec (.jne a) s = .next { s with pc := s.x[a].toNat }) ∧
    (taken → 8 ≤ a → exec (.jne a) s = .next (faultedFrom s .outOfRange (.place .reg a))) ∧
    (¬ taken → exec (.jne a) s = .next { s with pc := s.pc + 2 })

/-- 43_control_transfer.md section 1: CALL pushes `pc + 2` and goes to the address in the register as it is after the
push (D17); only `x[7]`, `pc` and the pushed cell change (D5); an index of 8 or more faults and nothing is pushed (D10,
log 5, DESIGN CHOICE). `pc` is at most 253, as at every CALL a fetch reaches (log 6). The canonical form of memory is
the model's own (log 9, DEDUCED). -/
def Obligations.CallPushesTheReturnAddress : Prop :=
  ∀ (s : State) (a : Nat), Memory.wf s.mem → s.pc ≤ 253 →
    (∀ ha : a < 8, ∃ (p : Byte) (t : State),
      p.toNat = (s.x[7].toNat + 255) % 256 ∧ exec (.call a) s = .next t ∧
      t.x = s.x.set 7 p ∧ t.pc = (if a = 7 then p else s.x[a]).toNat ∧
      (∃ v : Byte, t.memRead p.toNat = .ok v ∧ v.toNat = s.pc + 2) ∧
      (∀ c : Nat, c ≠ p.toNat → t.memRead c = s.memRead c) ∧
      t = { s with mem := t.mem, x := t.x, pc := t.pc }) ∧
    (8 ≤ a → exec (.call a) s = .next (faultedFrom s .outOfRange (.place .reg a)))

/-- 43_control_transfer.md section 1: RET goes to the byte at the stack pointer and increments the stack pointer (wrapping, D15);
nothing else changes (D5). -/
def Obligations.ReturnPopsTheProgramCounter : Prop :=
  ∀ s : State, ∃ v p : Byte,
    s.memRead s.x[7].toNat = .ok v ∧ p.toNat = (s.x[7].toNat + 1) % 256 ∧
    exec .ret s = .next { s with x := s.x.set 7 p, pc := v.toNat }

/-- 43_control_transfer.md section 1, the call and return pair (derived by the spec): if, when the RET executes, `x[7]`
and the cell it points at are as just after the CALL, control is back at the CALL's address plus 2 and `x[7]` is what it
was before the CALL, whatever else happened in between. The canonical form of memory is the model's own (log 9,
DEDUCED). -/
def Obligations.ReturnUndoesCall : Prop :=
  ∀ (s t u : State) (a : Nat), Memory.wf s.mem → s.pc ≤ 253 → a < 8 → exec (.call a) s = .next t →
    u.x[7] = t.x[7] → u.memRead u.x[7].toNat = t.memRead t.x[7].toNat →
    ∃ v, exec .ret u = .next v ∧ v.pc = s.pc + 2 ∧ v.x[7] = s.x[7]

/-- 41_alu.md section 1, the source's property of R96: after CMP a b, JEQ c jumps to the address in `c` if and only if the two
registers held equal values, JNE c if and only if they did not. -/
def Obligations.CompareDecidesTheJump : Prop :=
  ∀ (s : State) (a b c : Nat) (ha : a < 8) (hb : b < 8) (hc : c < 8),
    ∃ t u w, exec (.cmp a b) s = .next t ∧ exec (.jeq c) t = .next u ∧ exec (.jne c) t = .next w ∧
      u.pc = (if s.x[a] = s.x[b] then s.x[c].toNat else s.pc + 5) ∧
      w.pc = (if s.x[a] = s.x[b] then s.pc + 5 else s.x[c].toNat)

/-! ## Frames -/

/-- The frame of the instructions that write one register and nothing else, LDI, ADD, MUL, DIV, INC, DEC, AND: every
register but the destination, the flag, the output and every byte of memory stay; `status`, `cause` and `info` stay
unless a fault was taken, and then the destination stays too (00_scope.md section 4, R6; for a fault, 60_exceptions.md
section 2, D10, log 5, DESIGN CHOICE; 41_alu.md sections 1 and 3; 42_data_stack_io.md section 1). -/
def Obligations.RegisterResultFrame : Prop :=
  ∀ (s t : State) (a b : Nat) (imm : Byte) (i : Instr),
    i ∈ [Instr.ldi a imm, .add a b, .mul a b, .div a b, .inc a, .dec a, .and a b] → exec i s = .next t →
    (∀ r : Nat, r ≠ a → t.x[r]? = s.x[r]?) ∧ t.fl = s.fl ∧ t.out = s.out ∧ SameBytes s t ∧
      (SameControl s t ∨ FaultTaken s t)

/-- The frame of the instructions that write no register and no memory, CMP, PRN, JMP, JEQ, JNE, HLT: every register and
every byte stay; the flag stays but for CMP, the output but for PRN, `status` but for HLT; `cause` and `info` stay
unless a fault was taken (00_scope.md section 4, R6; for a fault, 60_exceptions.md section 2, D10, log 5, DESIGN CHOICE;
41_alu.md section 1; 42_data_stack_io.md section 3; 43_control_transfer.md section 2; 40_execution_cycle.md section 4).
-/
def Obligations.NoResultFrame : Prop :=
  ∀ (s t : State) (a b : Nat) (i : Instr),
    i ∈ [Instr.cmp a b, .prn a, .jmp a, .jeq a, .jne a, .hlt] → exec i s = .next t →
    t.x = s.x ∧ SameBytes s t ∧ (i ≠ .cmp a b → t.fl = s.fl) ∧ (i ≠ .prn a → t.out = s.out) ∧
      (SameControl s t ∨ FaultTaken s t ∨
        (i = .hlt ∧ t.status = .halted ∧ t.cause = s.cause ∧ t.info = s.info))

/-- The frame of the instructions that push, PUSH and CALL: every register but `x[7]`, the flag, the output, and every
byte but the one at the address pushed to stay (00_scope.md section 4, R6; for a fault, 60_exceptions.md section 2, D10,
log 5, DESIGN CHOICE; 42_data_stack_io.md sections 2 and 4; 43_control_transfer.md section 1). `status`, `cause` and
`info` stay unless a fault was taken. -/
def Obligations.StackStoreFrame : Prop :=
  ∀ (s t : State) (a : Nat) (i : Instr), i ∈ [Instr.push a, .call a] → exec i s = .next t →
    (∀ r : Nat, r ≠ 7 → t.x[r]? = s.x[r]?) ∧ t.fl = s.fl ∧ t.out = s.out ∧
      (∀ c : Nat, c ≠ s.pushAddress → t.memRead c = s.memRead c) ∧ (SameControl s t ∨ FaultTaken s t)

/-- The frame of the instructions that pop, POP and RET: every register but `x[7]` and POP's destination, the flag, the
output and every byte of memory stay (00_scope.md section 4, R6; for a fault, 60_exceptions.md section 2, D10, log 5,
DESIGN CHOICE; 42_data_stack_io.md sections 2 and 4; 43_control_transfer.md section 1). `status`, `cause` and `info`
stay unless a fault was taken. -/
def Obligations.StackLoadFrame : Prop :=
  ∀ (s t : State) (a : Nat) (i : Instr), i ∈ [Instr.pop a, .ret] → exec i s = .next t →
    (∀ r : Nat, r ≠ 7 → (i = .pop a → r ≠ a) → t.x[r]? = s.x[r]?) ∧ t.fl = s.fl ∧ t.out = s.out ∧
      SameBytes s t ∧ (SameControl s t ∨ FaultTaken s t)

/-! ## The run -/

/-- 40_execution_cycle.md section 3: how a run ends does not depend on the model's fuel: once a run has ended, more fuel gives the
same end. -/
def Obligations.RunResultIsIndependentOfFuel : Prop :=
  ∀ (s : State) (fuel more : Nat) (r : RunEnd), run fuel s = some r → run (fuel + more) s = some r

/-- 42_data_stack_io.md section 3 and 60_exceptions.md section 2: what a run has emitted stays emitted: the output of a run that
ends, however it ends, begins with the output of the state it was started from. -/
def Obligations.RunKeepsWhatWasEmitted : Prop :=
  ∀ (s : State) (fuel : Nat) (r : RunEnd), run fuel s = some r →
    ∃ e : List Byte, r.output = s.out ++ e
end

