-- ==== Sys2Proof/Laws/Decode.lean ====
section
/-! SUPPORT. The opcode table read both ways, and the length of an instruction. -/

namespace Sys2Proof

/-- The opcode byte of every identity decodes to it: no two rows of the table overlap (30_encoding.md R57). -/
@[simp] theorem decodeOpcode_opcode (m : Mnemonic) : decodeOpcode m.opcode = some m := by
  cases m <;> rfl

/-- A byte that decodes is the opcode byte of what it decodes to (R57: the whole byte is compared). -/
theorem opcode_of_decodeOpcode {op : Byte} {m : Mnemonic} (h : decodeOpcode op = some m) : op = m.opcode := by
  simp only [decodeOpcode, decodeOpcodeIn, Option.map_eq_some_iff] at h
  obtain ⟨row, hrow, rfl⟩ := h
  have hmem : row ∈ opcodeTable := List.mem_of_find?_eq_some hrow
  have heq : row.1 = op := by simpa using List.find?_some hrow
  have hall : ∀ r ∈ opcodeTable, r.1 = r.2.opcode := by decide
  exact heq ▸ hall row hmem

/-- The identity of an assembled instruction. -/
@[simp] theorem assemble_mnemonic (m : Mnemonic) (a b : Byte) : (assemble m a b).mnemonic = m := by
  cases m <;> rfl

end Sys2Proof
end

