-- ==== Sys2Proof/Laws/State.lean ====
section
/-! SUPPORT. One lemma per field per update of the state, each true by rfl, so that no later proof unfolds a record
update. -/

namespace Sys2Proof.Machine

@[simp] theorem State.setPc_mem (s : State) (t : Nat) : (s.setPc t).mem = s.mem := rfl
@[simp] theorem State.setPc_x (s : State) (t : Nat) : (s.setPc t).x = s.x := rfl
@[simp] theorem State.setPc_pc (s : State) (t : Nat) : (s.setPc t).pc = t := rfl
@[simp] theorem State.setPc_fl (s : State) (t : Nat) : (s.setPc t).fl = s.fl := rfl
@[simp] theorem State.setPc_status (s : State) (t : Nat) : (s.setPc t).status = s.status := rfl
@[simp] theorem State.setPc_cause (s : State) (t : Nat) : (s.setPc t).cause = s.cause := rfl
@[simp] theorem State.setPc_info (s : State) (t : Nat) : (s.setPc t).info = s.info := rfl
@[simp] theorem State.setPc_out (s : State) (t : Nat) : (s.setPc t).out = s.out := rfl

@[simp] theorem State.advance_mem (s : State) (n : Nat) : (s.advance n).mem = s.mem := rfl
@[simp] theorem State.advance_x (s : State) (n : Nat) : (s.advance n).x = s.x := rfl
@[simp] theorem State.advance_pc (s : State) (n : Nat) : (s.advance n).pc = s.pc + n := rfl
@[simp] theorem State.advance_fl (s : State) (n : Nat) : (s.advance n).fl = s.fl := rfl
@[simp] theorem State.advance_status (s : State) (n : Nat) : (s.advance n).status = s.status := rfl
@[simp] theorem State.advance_cause (s : State) (n : Nat) : (s.advance n).cause = s.cause := rfl
@[simp] theorem State.advance_info (s : State) (n : Nat) : (s.advance n).info = s.info := rfl
@[simp] theorem State.advance_out (s : State) (n : Nat) : (s.advance n).out = s.out := rfl

@[simp] theorem State.setSp_mem (s : State) (v : Byte) : (s.setSp v).mem = s.mem := rfl
@[simp] theorem State.setSp_x (s : State) (v : Byte) : (s.setSp v).x = s.x.set 7 v := rfl
@[simp] theorem State.setSp_pc (s : State) (v : Byte) : (s.setSp v).pc = s.pc := rfl
@[simp] theorem State.setSp_fl (s : State) (v : Byte) : (s.setSp v).fl = s.fl := rfl
@[simp] theorem State.setSp_status (s : State) (v : Byte) : (s.setSp v).status = s.status := rfl
@[simp] theorem State.setSp_cause (s : State) (v : Byte) : (s.setSp v).cause = s.cause := rfl
@[simp] theorem State.setSp_info (s : State) (v : Byte) : (s.setSp v).info = s.info := rfl
@[simp] theorem State.setSp_out (s : State) (v : Byte) : (s.setSp v).out = s.out := rfl

@[simp] theorem State.setFlag_mem (s : State) (v : Flag) : (s.setFlag v).mem = s.mem := rfl
@[simp] theorem State.setFlag_x (s : State) (v : Flag) : (s.setFlag v).x = s.x := rfl
@[simp] theorem State.setFlag_pc (s : State) (v : Flag) : (s.setFlag v).pc = s.pc := rfl
@[simp] theorem State.setFlag_fl (s : State) (v : Flag) : (s.setFlag v).fl = v := rfl
@[simp] theorem State.setFlag_status (s : State) (v : Flag) : (s.setFlag v).status = s.status := rfl
@[simp] theorem State.setFlag_cause (s : State) (v : Flag) : (s.setFlag v).cause = s.cause := rfl
@[simp] theorem State.setFlag_info (s : State) (v : Flag) : (s.setFlag v).info = s.info := rfl
@[simp] theorem State.setFlag_out (s : State) (v : Flag) : (s.setFlag v).out = s.out := rfl

@[simp] theorem State.emit_mem (s : State) (v : Byte) : (s.emit v).mem = s.mem := rfl
@[simp] theorem State.emit_x (s : State) (v : Byte) : (s.emit v).x = s.x := rfl
@[simp] theorem State.emit_pc (s : State) (v : Byte) : (s.emit v).pc = s.pc := rfl
@[simp] theorem State.emit_fl (s : State) (v : Byte) : (s.emit v).fl = s.fl := rfl
@[simp] theorem State.emit_status (s : State) (v : Byte) : (s.emit v).status = s.status := rfl
@[simp] theorem State.emit_cause (s : State) (v : Byte) : (s.emit v).cause = s.cause := rfl
@[simp] theorem State.emit_info (s : State) (v : Byte) : (s.emit v).info = s.info := rfl
@[simp] theorem State.emit_out (s : State) (v : Byte) : (s.emit v).out = s.out ++ [v] := rfl

@[simp] theorem State.halt_mem (s : State) : (s.halt).mem = s.mem := rfl
@[simp] theorem State.halt_x (s : State) : (s.halt).x = s.x := rfl
@[simp] theorem State.halt_pc (s : State) : (s.halt).pc = s.pc := rfl
@[simp] theorem State.halt_fl (s : State) : (s.halt).fl = s.fl := rfl
@[simp] theorem State.halt_status (s : State) : (s.halt).status = .halted := rfl
@[simp] theorem State.halt_cause (s : State) : (s.halt).cause = s.cause := rfl
@[simp] theorem State.halt_info (s : State) : (s.halt).info = s.info := rfl
@[simp] theorem State.halt_out (s : State) : (s.halt).out = s.out := rfl

@[simp] theorem State.decrementSp_mem (s : State) : (s.decrementSp).mem = s.mem := rfl
@[simp] theorem State.decrementSp_x (s : State) : (s.decrementSp).x = s.x.set 7 (wrap (s.sp.toNat + 255)) := rfl
@[simp] theorem State.decrementSp_pc (s : State) : (s.decrementSp).pc = s.pc := rfl
@[simp] theorem State.decrementSp_fl (s : State) : (s.decrementSp).fl = s.fl := rfl
@[simp] theorem State.decrementSp_status (s : State) : (s.decrementSp).status = s.status := rfl
@[simp] theorem State.decrementSp_cause (s : State) : (s.decrementSp).cause = s.cause := rfl
@[simp] theorem State.decrementSp_info (s : State) : (s.decrementSp).info = s.info := rfl
@[simp] theorem State.decrementSp_out (s : State) : (s.decrementSp).out = s.out := rfl

@[simp] theorem State.incrementSp_mem (s : State) : (s.incrementSp).mem = s.mem := rfl
@[simp] theorem State.incrementSp_x (s : State) : (s.incrementSp).x = s.x.set 7 (wrap (s.sp.toNat + 1)) := rfl
@[simp] theorem State.incrementSp_pc (s : State) : (s.incrementSp).pc = s.pc := rfl
@[simp] theorem State.incrementSp_fl (s : State) : (s.incrementSp).fl = s.fl := rfl
@[simp] theorem State.incrementSp_status (s : State) : (s.incrementSp).status = s.status := rfl
@[simp] theorem State.incrementSp_cause (s : State) : (s.incrementSp).cause = s.cause := rfl
@[simp] theorem State.incrementSp_info (s : State) : (s.incrementSp).info = s.info := rfl
@[simp] theorem State.incrementSp_out (s : State) : (s.incrementSp).out = s.out := rfl

@[simp] theorem State.takeFault_mem (s : State) (e : Exception) : (s.takeFault e).mem = s.mem := rfl
@[simp] theorem State.takeFault_x (s : State) (e : Exception) : (s.takeFault e).x = s.x := rfl
@[simp] theorem State.takeFault_pc (s : State) (e : Exception) : (s.takeFault e).pc = s.pc := rfl
@[simp] theorem State.takeFault_fl (s : State) (e : Exception) : (s.takeFault e).fl = s.fl := rfl
@[simp] theorem State.takeFault_status (s : State) (e : Exception) : (s.takeFault e).status = .faulted := rfl
@[simp] theorem State.takeFault_cause (s : State) (e : Exception) : (s.takeFault e).cause = e.cause := rfl
@[simp] theorem State.takeFault_info (s : State) (e : Exception) : (s.takeFault e).info = some ⟨s.pc, e.detail⟩ := rfl
@[simp] theorem State.takeFault_out (s : State) (e : Exception) : (s.takeFault e).out = s.out := rfl

@[simp] theorem State.setSp_sp (s : State) (v : Byte) : (s.setSp v).sp = v := by
  simp [State.sp]

end Sys2Proof.Machine
end

