-- ==== Sys2Proof/Laws/Memory.lean ====
section
/-! SUPPORT. The laws of memory: a read after a write, and that every memory operation keeps the canonical form. -/

namespace Sys2Proof.Machine

/-- The canonical form of a cell in front of a memory, taken apart. -/
theorem Memory.wf_cons {c : Host.Cell} {m : Memory} :
    Memory.wf (c :: m) ↔
      (∀ d ∈ m, c.1 < d.1) ∧ c.1 < Config.memSize ∧ c.2 ≠ Memory.unlisted ∧ Memory.wf m := by
  simp only [Memory.wf, List.pairwise_cons, List.mem_cons, forall_eq_or_imp]
  tauto

/-- An address below every listed one reads as unlisted. -/
theorem Memory.read_of_lt {m : Memory} {a : Nat} (h : ∀ d ∈ m, a < d.1) :
    Memory.read m a = Memory.unlisted := by
  induction m with
  | nil => rfl
  | cons c m ih =>
    have hne : c.1 ≠ a := (h c (by simp)).ne'
    simp only [Memory.read, hne, if_false]
    exact ih fun d hd => h d (by simp [hd])

/-- A write leaves every other address as it was. -/
theorem Memory.read_write_ne (m : Memory) {a b : Nat} (v : Byte) (h : b ≠ a) :
    Memory.read (Memory.write m a v) b = Memory.read m b := by
  induction m with
  | nil => by_cases hv : v = Memory.unlisted <;> simp [Memory.write, Memory.read, hv, h.symm]
  | cons c m ih =>
    obtain ⟨k, w⟩ := c
    by_cases hlt : a < k
    · by_cases hv : v = Memory.unlisted <;> simp [Memory.write, Memory.read, hlt, hv, h.symm]
    · by_cases hk : a = k
      · subst hk
        by_cases hv : v = Memory.unlisted <;> simp [Memory.write, Memory.read, hv, h.symm]
      · simp [Memory.write, Memory.read, hlt, hk, ih]

/-- A read after a write to the same address gives the value written. -/
theorem Memory.read_write_same {m : Memory} (hm : Memory.wf m) (a : Nat) (v : Byte) :
    Memory.read (Memory.write m a v) a = v := by
  induction m with
  | nil => by_cases hv : v = Memory.unlisted <;> simp [Memory.write, Memory.read, hv]
  | cons c m ih =>
    obtain ⟨k, w⟩ := c
    obtain ⟨hlow, -, -, hwf⟩ := Memory.wf_cons.mp hm
    by_cases hlt : a < k
    · by_cases hv : v = Memory.unlisted
      · have : Memory.read ((k, w) :: m) a = Memory.unlisted :=
          Memory.read_of_lt fun d hd => by
            rcases List.mem_cons.mp hd with rfl | hd
            · exact hlt
            · exact hlt.trans (hlow d hd)
        simp only [Memory.write, hlt, hv, if_true, this]
      · simp [Memory.write, Memory.read, hlt, hv]
    · by_cases hk : a = k
      · subst hk
        by_cases hv : v = Memory.unlisted
        · simp only [Memory.write, lt_irrefl, if_false, if_true, hv]
          exact Memory.read_of_lt hlow
        · simp [Memory.write, Memory.read, hv]
      · simp [Memory.write, Memory.read, hlt, hk, Ne.symm hk, ih hwf]

/-- A cell of a written memory is the written one or was there before. -/
theorem Memory.mem_write {m : Memory} {a : Nat} {v : Byte} {d : Host.Cell}
    (hd : d ∈ Memory.write m a v) : (d = (a, v) ∧ v ≠ Memory.unlisted) ∨ d ∈ m := by
  induction m with
  | nil => by_cases hv : v = Memory.unlisted <;> simp_all [Memory.write]
  | cons c m ih =>
    obtain ⟨k, w⟩ := c
    simp only [Memory.write] at hd
    split_ifs at hd <;> simp only [List.mem_cons] at hd ⊢ <;> tauto

/-- A write inside the address space keeps the canonical form. -/
theorem Memory.wf_write {m : Memory} (hm : Memory.wf m) {a : Nat} (ha : a < Config.memSize) (v : Byte) :
    Memory.wf (Memory.write m a v) := by
  induction m with
  | nil =>
    by_cases hv : v = Memory.unlisted
    · simp only [Memory.write, hv, if_true]; exact hm
    · simp only [Memory.write, hv, if_false]
      exact Memory.wf_cons.mpr ⟨by simp, ha, hv, hm⟩
  | cons c m ih =>
    obtain ⟨k, w⟩ := c
    obtain ⟨hlow, hk, hw, hwf⟩ := Memory.wf_cons.mp hm
    simp only [Memory.write]
    split_ifs with hlt hv heq hv
    · exact hm
    · refine Memory.wf_cons.mpr ⟨fun d hd => ?_, ha, hv, hm⟩
      rcases List.mem_cons.mp hd with rfl | hd
      · exact hlt
      · exact hlt.trans (hlow d hd)
    · exact hwf
    · exact Memory.wf_cons.mpr ⟨fun d hd => heq ▸ hlow d hd, ha, hv, hwf⟩
    · refine Memory.wf_cons.mpr ⟨fun d hd => ?_, hk, hw, ih hwf⟩
      rcases Memory.mem_write hd with ⟨rfl, -⟩ | hd
      · simp only; omega
      · exact hlow d hd

/-- The memory at reset has the canonical form. -/
theorem Memory.wf_reset : Memory.wf State.reset.mem := by decide

/-- MemRead inside the address space (20_memory.md R30). -/
theorem State.memRead_ok (s : State) {a : Nat} (h : a < 256) :
    s.memRead a = .ok (Memory.read s.mem a) := by
  simp [State.memRead, h]

/-- MemRead outside the address space (R30). -/
theorem State.memRead_error (s : State) {a : Nat} (h : ¬ a < 256) :
    s.memRead a = .error (.outOfRange .mem a) := by
  simp [State.memRead, h]

/-- MemWrite inside the address space (R30). -/
theorem State.memWrite_ok (s : State) {a : Nat} (v : Byte) (h : a < 256) :
    s.memWrite a v = .ok { s with mem := Memory.write s.mem a v } := by
  simp [State.memWrite, h]

/-- Everything a successful MemWrite can do: the address is inside, only memory changes, its form is kept. -/
theorem State.memWrite_cases {s t : State} {a : Nat} {v : Byte} (h : s.memWrite a v = .ok t) :
    a < 256 ∧ t = { s with mem := Memory.write s.mem a v } ∧ (Memory.wf s.mem → Memory.wf t.mem) := by
  unfold State.memWrite at h
  split_ifs at h with ha
  cases h
  exact ⟨ha, rfl, fun hm => Memory.wf_write hm ha v⟩

end Sys2Proof.Machine
end

