-- ==== Sys2Proof/Laws/Ops.lean ====
section
/-! SUPPORT. What each shared operation can do, said once: register operands, the stack, the end of a step, and the
effect of every handler as an equation on the operands it accepts. -/

namespace Sys2Proof.Machine

/-! ## Register operands -/

/-- A register operand in range reads its register (10_state.md R13). -/
theorem State.readReg_ok (s : State) {i : Nat} (h : i < 8) : s.readReg i = .ok s.x[i] := by
  simp [State.readReg, h]

/-- A register operand out of range raises OutOfRange (R13). -/
theorem State.readReg_error (s : State) {i : Nat} (h : 8 ≤ i) :
    s.readReg i = .error (.outOfRange .reg i) := by
  simp [State.readReg, h]

/-- A register operand in range is written (R5). -/
theorem State.writeReg_ok (s : State) {i : Nat} (v : Byte) (h : i < 8) :
    s.writeReg i v = .ok { s with x := s.x.set i v h } := by
  simp [State.writeReg, h]

/-- A register operand out of range raises OutOfRange and is not written (R5). -/
theorem State.writeReg_error (s : State) {i : Nat} (v : Byte) (h : 8 ≤ i) :
    s.writeReg i v = .error (.outOfRange .reg i) := by
  simp [State.writeReg, Nat.not_lt.mpr h]

theorem checkReg_ok {i : Nat} (h : i < 8) : checkReg i = .ok () := by
  simp [checkReg, h]

theorem checkReg_error {i : Nat} (h : 8 ≤ i) : checkReg i = .error (.outOfRange .reg i) := by
  simp [checkReg, Nat.not_lt.mpr h]

/-- Everything a register read can do. -/
theorem State.readReg_cases (s : State) (i : Nat) :
    (∃ h : i < 8, s.readReg i = .ok s.x[i]) ∨ (8 ≤ i ∧ s.readReg i = .error (.outOfRange .reg i)) := by
  rcases Nat.lt_or_ge i 8 with h | h
  · exact .inl ⟨h, s.readReg_ok h⟩
  · exact .inr ⟨h, s.readReg_error h⟩

/-! ## The stack -/

/-- A push always succeeds: it stores at the decremented stack pointer (42_data_stack_io.md R121). -/
theorem State.pushVal_eq (s : State) (v : Byte) :
    s.pushVal v = .ok { s.decrementSp with mem := Memory.write s.mem s.pushAddress v } := by
  have h : s.decrementSp.sp.toNat < 256 := s.decrementSp.sp.isLt
  rw [State.pushVal, State.memWrite_ok _ _ h]
  rw [show s.decrementSp.sp.toNat = s.pushAddress by simp [State.decrementSp, State.pushAddress]]
  rfl

/-- The address of a push is in range (20_memory.md R38). -/
theorem State.pushAddress_lt (s : State) : s.pushAddress < 256 := (wrap _).isLt

/-- A pop always succeeds: it reads at the stack pointer, then increments it (R122). -/
theorem State.popVal_eq (s : State) :
    s.popVal = .ok (Memory.read s.mem s.sp.toNat, s.incrementSp) := by
  simp [State.popVal, s.memRead_ok s.sp.isLt, bind, Except.bind]

/-! ## The end of a step -/

@[simp] theorem complete_ok (s t : State) : complete s (.ok t) = .next t := rfl

@[simp] theorem complete_error (s : State) (e : Exception) :
    complete s (.error e) = .next (s.takeFault e) := rfl

@[simp] theorem thenAdvance_ok (n : Nat) (t : State) : thenAdvance n (.ok t) = .ok (t.advance n) := rfl

@[simp] theorem thenAdvance_error (n : Nat) (e : Exception) :
    thenAdvance n (.error e) = .error e := rfl

/-- Everything the end of a step can do: the writes of the step, or the fault taken in the state before it. -/
theorem complete_cases {s t : State} {r : Except Exception State} (h : complete s r = .next t) :
    r = .ok t ∨ ∃ e, r = .error e ∧ t = s.takeFault e := by
  cases r with
  | ok u => simp only [complete_ok, Host.Outcome.next.injEq] at h; exact .inl (h ▸ rfl)
  | error e => simp only [complete_error, Host.Outcome.next.injEq] at h; exact .inr ⟨e, rfl, h.symm⟩

/-- Everything an advance can do. -/
theorem thenAdvance_cases {n : Nat} {t : State} {r : Except Exception State} (h : thenAdvance n r = .ok t) :
    ∃ u, r = .ok u ∧ t = u.advance n := by
  cases r with
  | ok u => simp only [thenAdvance_ok, Except.ok.injEq] at h; exact ⟨u, rfl, h.symm⟩
  | error e => simp at h

/-! ## The effects of the handlers on the operands they accept and refuse -/

theorem oneRegister_ok (f : Byte → Byte) (s : State) {a : Nat} (h : a < 8) :
    oneRegister f a s = .ok { s with x := s.x.set a (f s.x[a]) h } := by
  simp [oneRegister, s.readReg_ok h, s.writeReg_ok _ h, bind, Except.bind]

theorem oneRegister_error (f : Byte → Byte) (s : State) {a : Nat} (h : 8 ≤ a) :
    oneRegister f a s = .error (.outOfRange .reg a) := by
  simp [oneRegister, s.readReg_error h, bind, Except.bind]

theorem twoRegister_ok (f : Byte → Byte → Byte) (s : State) {a b : Nat} (ha : a < 8) (hb : b < 8) :
    twoRegister f a b s = .ok { s with x := s.x.set a (f s.x[a] s.x[b]) ha } := by
  simp [twoRegister, s.readReg_ok ha, s.readReg_ok hb, s.writeReg_ok _ ha, bind, Except.bind]

/-- The first operand out of range is reported before the second (41_alu.md R104). -/
theorem twoRegister_error_a (f : Byte → Byte → Byte) (s : State) {a : Nat} (b : Nat) (ha : 8 ≤ a) :
    twoRegister f a b s = .error (.outOfRange .reg a) := by
  simp [twoRegister, s.readReg_error ha, bind, Except.bind]

theorem twoRegister_error_b (f : Byte → Byte → Byte) (s : State) {a b : Nat} (ha : a < 8) (hb : 8 ≤ b) :
    twoRegister f a b s = .error (.outOfRange .reg b) := by
  simp [twoRegister, s.readReg_ok ha, s.readReg_error hb, bind, Except.bind]

theorem divEffect_ok (s : State) {a b : Nat} (ha : a < 8) (hb : b < 8) (h0 : s.x[b] ≠ 0#8) :
    divEffect a b s = .ok { s with x := s.x.set a (divValue s.x[a] s.x[b]) ha } := by
  simp [divEffect, s.readReg_ok ha, s.readReg_ok hb, s.writeReg_ok _ ha, h0, bind, Except.bind]

theorem divEffect_zero (s : State) {a b : Nat} (ha : a < 8) (hb : b < 8) (h0 : s.x[b] = 0#8) :
    divEffect a b s = .error (.divisionByZero b) := by
  simp [divEffect, s.readReg_ok ha, s.readReg_ok hb, h0, bind, Except.bind]

theorem divEffect_error_a (s : State) {a : Nat} (b : Nat) (ha : 8 ≤ a) :
    divEffect a b s = .error (.outOfRange .reg a) := by
  simp [divEffect, s.readReg_error ha, bind, Except.bind]

theorem divEffect_error_b (s : State) {a b : Nat} (ha : a < 8) (hb : 8 ≤ b) :
    divEffect a b s = .error (.outOfRange .reg b) := by
  simp [divEffect, s.readReg_ok ha, s.readReg_error hb, bind, Except.bind]

theorem cmpEffect_ok (s : State) {a b : Nat} (ha : a < 8) (hb : b < 8) :
    cmpEffect a b s = .ok (s.setFlag (compareFlag s.x[a] s.x[b])) := by
  simp [cmpEffect, s.readReg_ok ha, s.readReg_ok hb, bind, Except.bind]

theorem cmpEffect_error_a (s : State) {a : Nat} (b : Nat) (ha : 8 ≤ a) :
    cmpEffect a b s = .error (.outOfRange .reg a) := by
  simp [cmpEffect, s.readReg_error ha, bind, Except.bind]

theorem cmpEffect_error_b (s : State) {a b : Nat} (ha : a < 8) (hb : 8 ≤ b) :
    cmpEffect a b s = .error (.outOfRange .reg b) := by
  simp [cmpEffect, s.readReg_ok ha, s.readReg_error hb, bind, Except.bind]

theorem prnEffect_ok (s : State) {a : Nat} (h : a < 8) : prnEffect a s = .ok (s.emit s.x[a]) := by
  simp [prnEffect, s.readReg_ok h, bind, Except.bind]

theorem prnEffect_error (s : State) {a : Nat} (h : 8 ≤ a) :
    prnEffect a s = .error (.outOfRange .reg a) := by
  simp [prnEffect, s.readReg_error h, bind, Except.bind]

/-- PUSH stores the register as it is after the decrement (R124). -/
theorem pushEffect_ok (s : State) {a : Nat} (h : a < 8) :
    pushEffect a s =
      .ok { s.decrementSp with mem := Memory.write s.mem s.pushAddress (s.decrementSp.x[a]) } := by
  simp [pushEffect, checkReg_ok h, s.decrementSp.readReg_ok h, s.pushVal_eq, bind, Except.bind]

theorem pushEffect_error (s : State) {a : Nat} (h : 8 ≤ a) :
    pushEffect a s = .error (.outOfRange .reg a) := by
  simp [pushEffect, checkReg_error h, bind, Except.bind]

/-- POP writes the register, then increments the stack pointer (R125). -/
theorem popEffect_ok (s : State) {a : Nat} (h : a < 8) :
    popEffect a s =
      .ok (State.incrementSp { s with x := s.x.set a (Memory.read s.mem s.sp.toNat) h }) := by
  simp [popEffect, checkReg_ok h, s.memRead_ok s.sp.isLt, s.writeReg_ok _ h, bind, Except.bind]

theorem popEffect_error (s : State) {a : Nat} (h : 8 ≤ a) :
    popEffect a s = .error (.outOfRange .reg a) := by
  simp [popEffect, checkReg_error h, bind, Except.bind]

theorem jumpTo_ok (s : State) {a : Nat} (h : a < 8) : jumpTo a s = .ok (s.setPc (s.x[a]).toNat) := by
  simp [jumpTo, s.readReg_ok h, bind, Except.bind]

theorem jumpTo_error (s : State) {a : Nat} (h : 8 ≤ a) : jumpTo a s = .error (.outOfRange .reg a) := by
  simp [jumpTo, s.readReg_error h, bind, Except.bind]

/-- CALL jumps to the register as it is after the push (43_control_transfer.md R140). -/
theorem callEffect_ok (s : State) {a : Nat} (h : a < 8) :
    callEffect a s =
      .ok { s.decrementSp with
        mem := Memory.write s.mem s.pushAddress (wrap (s.pc + 2)), pc := (s.decrementSp.x[a]).toNat } := by
  simp [callEffect, checkReg_ok h, s.pushVal_eq, jumpTo, State.readReg, h, bind, Except.bind, State.setPc]

theorem callEffect_error (s : State) {a : Nat} (h : 8 ≤ a) :
    callEffect a s = .error (.outOfRange .reg a) := by
  simp [callEffect, checkReg_error h, bind, Except.bind]

/-- RET always succeeds (R141). -/
theorem retEffect_eq (s : State) :
    retEffect s = .ok (s.incrementSp.setPc (Memory.read s.mem s.sp.toNat).toNat) := by
  simp [retEffect, s.popVal_eq, bind, Except.bind]

end Sys2Proof.Machine
end

