-- ==== Sys2Proof/Laws/Step.lean ====
section
/-! SUPPORT. What a fetch and a step can do, said once. -/

namespace Sys2Proof.Machine

/-- A fetch that succeeds: all three bytes exist and the opcode byte is recognised (40_execution_cycle.md R70, R71). -/
theorem State.fetch_ok {s : State} {m : Mnemonic} (hpc : s.pc ≤ 253)
    (hm : decodeOpcode (Memory.read s.mem s.pc) = some m) :
    s.fetch = .ok (assemble m (Memory.read s.mem (s.pc + 1)) (Memory.read s.mem (s.pc + 2))) := by
  have h0 : s.pc < 256 := by omega
  have h1 : s.pc + 1 < 256 := by omega
  have h2 : s.pc + 2 < 256 := by omega
  simp only [decodeOpcode] at hm
  simp [State.fetch, State.fetchOpcode, State.fetchOperands, s.memRead_ok h0, s.memRead_ok h1, s.memRead_ok h2,
    hm, bind, Except.bind]

/-- Everything a fetch can do, in the order of its tests (60_exceptions.md R187 (1) to (4)). -/
theorem State.fetch_cases (s : State) :
    (256 ≤ s.pc ∧ s.fetch = .error (.outOfRange .mem s.pc)) ∨
    (s.pc < 256 ∧ decodeOpcode (Memory.read s.mem s.pc) = none ∧
      s.fetch = .error (.unknownOpcode (Memory.read s.mem s.pc))) ∨
    ((s.pc = 254 ∨ s.pc = 255) ∧ (∃ m, decodeOpcode (Memory.read s.mem s.pc) = some m) ∧
      s.fetch = .error (.outOfRange .mem 256)) ∨
    (s.pc ≤ 253 ∧ ∃ m, decodeOpcode (Memory.read s.mem s.pc) = some m ∧
      s.fetch = .ok (assemble m (Memory.read s.mem (s.pc + 1)) (Memory.read s.mem (s.pc + 2)))) := by
  rcases Nat.lt_or_ge s.pc 256 with hpc | hpc
  · cases hm : decodeOpcode (Memory.read s.mem s.pc) with
    | none =>
      refine .inr (.inl ⟨hpc, rfl, ?_⟩)
      simp only [decodeOpcode] at hm
      simp [State.fetch, State.fetchOpcode, s.memRead_ok hpc, hm, bind, Except.bind]
    | some m =>
      rcases Nat.lt_or_ge s.pc 254 with h3 | h3
      · exact .inr (.inr (.inr ⟨by omega, m, rfl, State.fetch_ok (by omega) hm⟩))
      · refine .inr (.inr (.inl ⟨by omega, ⟨m, rfl⟩, ?_⟩))
        simp only [decodeOpcode] at hm
        obtain h | h : s.pc = 254 ∨ s.pc = 255 := by omega
        all_goals
          rw [h] at hm
          simp [State.fetch, State.fetchOpcode, State.fetchOperands, State.memRead, h, hm, bind, Except.bind]
  · refine .inl ⟨hpc, ?_⟩
    simp [State.fetch, State.fetchOpcode, s.memRead_error (Nat.not_lt.mpr hpc), bind, Except.bind]

/-- A RUNNING core whose fetch succeeds runs the instruction. -/
theorem step_of_fetch {s : State} {i : Instr} (hr : s.status = .running) (hf : s.fetch = .ok i) :
    step s = exec i s := by
  simp [step, hr, hf]

/-- A RUNNING core whose fetch raises takes that fault. -/
theorem step_of_fetch_error {s : State} {e : Exception} (hr : s.status = .running) (hf : s.fetch = .error e) :
    step s = .next (s.takeFault e) := by
  simp [step, hr, hf]

/-- The machine with a table word in place fetches and runs exactly that instruction, from every state whose memory has
the canonical form. -/
theorem step_withFetchWord {s : State} (hm : Memory.wf s.mem) {nbits w : Nat} {i : Instr}
    (h : decodeTableWord nbits w = some i) :
    step (s.withFetchWord nbits w) = exec i (s.withFetchWord nbits w) := by
  have hpc : (s.withFetchWord nbits w).pc ≤ 253 := by
    simp only [State.withFetchWord]; split <;> omega
  have wf0 := fun v => Memory.wf_write hm (a := (s.withFetchWord nbits w).pc) (by simp only [Config.memSize]; omega) v
  have wf1 := fun u v => Memory.wf_write (wf0 u) (a := (s.withFetchWord nbits w).pc + 1)
    (by simp only [Config.memSize]; omega) v
  have ne1 : ∀ p : Nat, p ≠ p + 1 := by omega
  have ne2 : ∀ p : Nat, p ≠ p + 2 := by omega
  have ne3 : ∀ p : Nat, p + 1 ≠ p + 2 := by omega
  have b2 : Memory.read (s.withFetchWord nbits w).mem ((s.withFetchWord nbits w).pc + 2) = byteOf (w % 2 ^ nbits) 2 :=
    Memory.read_write_same (wf1 _ _) _ _
  have b1 : Memory.read (s.withFetchWord nbits w).mem ((s.withFetchWord nbits w).pc + 1) = byteOf (w % 2 ^ nbits) 1 :=
    (Memory.read_write_ne _ _ (ne3 _)).trans (Memory.read_write_same (wf0 _) _ _)
  have b0 : Memory.read (s.withFetchWord nbits w).mem (s.withFetchWord nbits w).pc = byteOf (w % 2 ^ nbits) 0 :=
    (Memory.read_write_ne _ _ (ne2 _)).trans
      ((Memory.read_write_ne _ _ (ne1 _)).trans (Memory.read_write_same hm _ _))
  cases hd : decodeOpcode (byteOf (w % 2 ^ nbits) 0) with
  | none => simp [decodeTableWord, decode, tableBytes, hd] at h
  | some m =>
    refine step_of_fetch rfl ?_
    rw [State.fetch_ok hpc (b0 ▸ hd), b1, b2]
    have hop := opcode_of_decodeOpcode hd
    simp only [decodeTableWord, decode, tableBytes, hd] at h
    rw [hop] at h
    revert h
    cases m <;>
      first
        | rw [show opCnt _ = 0 by decide]
        | rw [show opCnt _ = 1 by decide]
        | rw [show opCnt _ = 2 by decide]
    all_goals
      intro h
      exact congrArg Except.ok (Option.some.inj h)

end Sys2Proof.Machine
end

