-- ==== Sys2Proof/Laws/Exec.lean ====
section
/-! SUPPORT. Everything an instruction can do, said once: `exec` is the end of one effect, and an effect that succeeds has
one of nine shapes. -/

namespace Sys2Proof.Machine

/-- The effect of an instruction with its pc update: the writes of the step, or what it raises. -/
def effectOf : Instr → State → Except Exception State
  | .nop, _ => .error (.notImplemented Mnemonic.nop.opcode)
  | .hlt, s => thenAdvance 1 (.ok s.halt)
  | .ret, s => retEffect s
  | .iret, _ => .error (.notImplemented Mnemonic.iret.opcode)
  | .push a, s => thenAdvance 2 (pushEffect a s)
  | .pop a, s => thenAdvance 2 (popEffect a s)
  | .prn a, s => thenAdvance 2 (prnEffect a s)
  | .pra _, _ => .error (.notImplemented Mnemonic.pra.opcode)
  | .call a, s => callEffect a s
  | .int _, _ => .error (.notImplemented Mnemonic.int.opcode)
  | .jmp a, s => jmpEffect a s
  | .jeq a, s => jeqEffect a s
  | .jne a, s => jneEffect flagUnsetAsFalse a s
  | .jgt _, _ => .error (.notImplemented Mnemonic.jgt.opcode)
  | .jlt _, _ => .error (.notImplemented Mnemonic.jlt.opcode)
  | .jle _, _ => .error (.notImplemented Mnemonic.jle.opcode)
  | .jge _, _ => .error (.notImplemented Mnemonic.jge.opcode)
  | .inc a, s => thenAdvance 2 (incEffect a s)
  | .dec a, s => thenAdvance 2 (decEffect a s)
  | .not _, _ => .error (.notImplemented Mnemonic.not.opcode)
  | .ldi a imm, s => thenAdvance 3 (ldiEffect a imm s)
  | .ld _ _, _ => .error (.notImplemented Mnemonic.ld.opcode)
  | .st _ _, _ => .error (.notImplemented Mnemonic.st.opcode)
  | .add a b, s => thenAdvance 3 (addEffect a b s)
  | .sub _ _, _ => .error (.notImplemented Mnemonic.sub.opcode)
  | .mul a b, s => thenAdvance 3 (mulEffect a b s)
  | .div a b, s => thenAdvance 3 (divEffect a b s)
  | .mod _ _, _ => .error (.notImplemented Mnemonic.mod.opcode)
  | .cmp a b, s => thenAdvance 3 (cmpEffect a b s)
  | .and a b, s => thenAdvance 3 (andEffect a b s)
  | .or _ _, _ => .error (.notImplemented Mnemonic.or.opcode)
  | .xor _ _, _ => .error (.notImplemented Mnemonic.xor.opcode)
  | .shl _ _, _ => .error (.notImplemented Mnemonic.shl.opcode)
  | .shr _ _, _ => .error (.notImplemented Mnemonic.shr.opcode)

/-- An instruction is the end of its effect. -/
theorem exec_eq_complete (i : Instr) (s : State) : exec i s = complete s (effectOf i s) := by
  cases i <;> rfl

/-- Everything an instruction can answer: the writes of its effect, or the fault its effect raised. -/
theorem exec_cases {i : Instr} {s t : State} (h : exec i s = .next t) :
    effectOf i s = .ok t ∨ ∃ e, effectOf i s = .error e ∧ t = s.takeFault e :=
  complete_cases (exec_eq_complete i s ▸ h)

/-- The instructions that write one register and nothing else, with that register and their length. -/
def registerResult : Instr → Option (Nat × Nat)
  | .ldi a _ | .add a _ | .mul a _ | .div a _ | .and a _ => some (a, 3)
  | .inc a | .dec a => some (a, 2)
  | _ => none

/-- The shapes of a successful effect. -/
inductive Shape (i : Instr) (s t : State) : Prop where
  | register (a : Nat) (len : Nat) (v : Byte) (ha : a < 8) (hlen : 2 ≤ len ∧ len ≤ 3)
      (hi : registerResult i = some (a, len)) (ht : t = { s with x := s.x.set a v, pc := s.pc + len })
  | compare (a b : Nat) (ha : a < 8) (hb : b < 8) (hi : i = .cmp a b)
      (ht : t = { s with fl := compareFlag s.x[a] s.x[b], pc := s.pc + 3 })
  | print (a : Nat) (ha : a < 8) (hi : i = .prn a)
      (ht : t = { s with out := s.out ++ [s.x[a]], pc := s.pc + 2 })
  | push (a : Nat) (ha : a < 8) (hi : i = .push a)
      (ht : t = { s.decrementSp with
        mem := Memory.write s.mem s.pushAddress (s.decrementSp.x[a]), pc := s.pc + 2 })
  | pop (a : Nat) (ha : a < 8) (hi : i = .pop a)
      (ht : t = { s with
        x := (State.incrementSp { s with x := s.x.set a (Memory.read s.mem s.sp.toNat) }).x, pc := s.pc + 2 })
  | call (a : Nat) (ha : a < 8) (hi : i = .call a)
      (ht : t = { s.decrementSp with
        mem := Memory.write s.mem s.pushAddress (wrap (s.pc + 2)), pc := (s.decrementSp.x[a]).toNat })
  | ret (hi : i = .ret) (ht : t = { s.incrementSp with pc := (Memory.read s.mem s.sp.toNat).toNat })
  | jump (a : Nat) (hi : i = .jmp a ∨ i = .jeq a ∨ i = .jne a) (p : Nat) (hp : p < 256 ∨ p = s.pc + 2)
      (ht : t = { s with pc := p })
  | halt (hi : i = .hlt) (ht : t = { s with status := .halted, pc := s.pc + 1 })

theorem oneRegister_cases {f : Byte → Byte} {a : Nat} {s t : State} (h : oneRegister f a s = .ok t) :
    ∃ (v : Byte) (ha : a < 8), t = { s with x := s.x.set a v ha } := by
  rcases Nat.lt_or_ge a 8 with ha | ha
  · rw [oneRegister_ok f s ha, Except.ok.injEq] at h; exact ⟨_, ha, h.symm⟩
  · simp [oneRegister_error f s ha] at h

theorem twoRegister_cases {f : Byte → Byte → Byte} {a b : Nat} {s t : State}
    (h : twoRegister f a b s = .ok t) : ∃ (v : Byte) (ha : a < 8), t = { s with x := s.x.set a v ha } := by
  rcases Nat.lt_or_ge a 8 with ha | ha
  · rcases Nat.lt_or_ge b 8 with hb | hb
    · rw [twoRegister_ok f s ha hb, Except.ok.injEq] at h; exact ⟨_, ha, h.symm⟩
    · simp [twoRegister_error_b f s ha hb] at h
  · simp [twoRegister_error_a f s b ha] at h

theorem divEffect_cases {a b : Nat} {s t : State} (h : divEffect a b s = .ok t) :
    ∃ (v : Byte) (ha : a < 8), t = { s with x := s.x.set a v ha } := by
  rcases Nat.lt_or_ge a 8 with ha | ha
  · rcases Nat.lt_or_ge b 8 with hb | hb
    · by_cases h0 : s.x[b] = 0#8
      · simp [divEffect_zero s ha hb h0] at h
      · rw [divEffect_ok s ha hb h0, Except.ok.injEq] at h; exact ⟨_, ha, h.symm⟩
    · simp [divEffect_error_b s ha hb] at h
  · simp [divEffect_error_a s b ha] at h

theorem ldiEffect_cases {a : Nat} {imm : Byte} {s t : State} (h : ldiEffect a imm s = .ok t) :
    ∃ (v : Byte) (ha : a < 8), t = { s with x := s.x.set a v ha } := by
  rcases Nat.lt_or_ge a 8 with ha | ha
  · rw [ldiEffect, s.writeReg_ok _ ha, Except.ok.injEq] at h; exact ⟨_, ha, h.symm⟩
  · simp [ldiEffect, s.writeReg_error _ ha] at h

theorem jumpTo_cases {a : Nat} {s t : State} (h : jumpTo a s = .ok t) :
    ∃ p : Nat, p < 256 ∧ t = { s with pc := p } := by
  rcases Nat.lt_or_ge a 8 with ha | ha
  · rw [jumpTo_ok s ha, Except.ok.injEq] at h; exact ⟨_, s.x[a].isLt, h.symm⟩
  · simp [jumpTo_error s ha] at h

/-- A conditional jump that succeeds jumps or falls through. -/
theorem branch_cases {c : Bool} {a : Nat} {s t : State}
    (h : (if c then jumpTo a s else .ok (s.setPc (s.pc + 2))) = .ok t) :
    ∃ p : Nat, (p < 256 ∨ p = s.pc + 2) ∧ t = { s with pc := p } := by
  cases c with
  | true => obtain ⟨p, hp, ht⟩ := jumpTo_cases h; exact ⟨p, .inl hp, ht⟩
  | false => exact ⟨_, .inr rfl, (Except.ok.inj h).symm⟩

/-- Everything a successful effect can be. -/
theorem effectOf_shape {i : Instr} {s t : State} (h : effectOf i s = .ok t) : Shape i s t := by
  have register : ∀ {a len r}, registerResult i = some (a, len) → 2 ≤ len ∧ len ≤ 3 →
      (∀ u, r = .ok u → ∃ (v : Byte) (ha : a < 8), u = { s with x := s.x.set a v ha }) →
      thenAdvance len r = .ok t → Shape i s t := fun hi hlen hr h => by
    obtain ⟨u, hu, rfl⟩ := thenAdvance_cases h
    obtain ⟨v, ha, rfl⟩ := hr u hu
    exact .register _ _ v ha hlen hi rfl
  cases i with
  | add a b => exact register rfl (by omega) (fun _ => twoRegister_cases) h
  | mul a b => exact register rfl (by omega) (fun _ => twoRegister_cases) h
  | and a b => exact register rfl (by omega) (fun _ => twoRegister_cases) h
  | div a b => exact register rfl (by omega) (fun _ => divEffect_cases) h
  | inc a => exact register rfl (by omega) (fun _ => oneRegister_cases) h
  | dec a => exact register rfl (by omega) (fun _ => oneRegister_cases) h
  | ldi a imm => exact register rfl (by omega) (fun _ => ldiEffect_cases) h
  | cmp a b =>
    obtain ⟨u, hu, rfl⟩ := thenAdvance_cases h
    rcases Nat.lt_or_ge a 8 with ha | ha
    · rcases Nat.lt_or_ge b 8 with hb | hb
      · rw [cmpEffect_ok s ha hb, Except.ok.injEq] at hu
        exact .compare a b ha hb rfl (hu ▸ rfl)
      · simp [cmpEffect_error_b s ha hb] at hu
    · simp [cmpEffect_error_a s b ha] at hu
  | prn a =>
    obtain ⟨u, hu, rfl⟩ := thenAdvance_cases h
    rcases Nat.lt_or_ge a 8 with ha | ha
    · rw [prnEffect_ok s ha, Except.ok.injEq] at hu
      exact .print a ha rfl (hu ▸ rfl)
    · simp [prnEffect_error s ha] at hu
  | push a =>
    obtain ⟨u, hu, rfl⟩ := thenAdvance_cases h
    rcases Nat.lt_or_ge a 8 with ha | ha
    · rw [pushEffect_ok s ha, Except.ok.injEq] at hu
      exact .push a ha rfl (hu ▸ rfl)
    · simp [pushEffect_error s ha] at hu
  | pop a =>
    obtain ⟨u, hu, rfl⟩ := thenAdvance_cases h
    rcases Nat.lt_or_ge a 8 with ha | ha
    · rw [popEffect_ok s ha, Except.ok.injEq] at hu
      exact .pop a ha rfl (hu ▸ rfl)
    · simp [popEffect_error s ha] at hu
  | call a =>
    rcases Nat.lt_or_ge a 8 with ha | ha
    · rw [effectOf, callEffect_ok s ha, Except.ok.injEq] at h
      exact .call a ha rfl h.symm
    · simp [effectOf, callEffect_error s ha] at h
  | ret =>
    rw [effectOf, retEffect_eq, Except.ok.injEq] at h
    exact .ret rfl h.symm
  | jmp a =>
    obtain ⟨p, hp, ht⟩ := jumpTo_cases h
    exact .jump a (.inl rfl) p (.inl hp) ht
  | jeq a =>
    obtain ⟨p, hp, ht⟩ := branch_cases h
    exact .jump a (.inr (.inl rfl)) p hp ht
  | jne a =>
    obtain ⟨p, hp, ht⟩ := branch_cases h
    exact .jump a (.inr (.inr rfl)) p hp ht
  | hlt => exact .halt rfl (Except.ok.inj h).symm
  | nop | iret | pra a | int a | jgt a | jlt a | jle a | jge a | not a => simp [effectOf] at h
  | ld a b | st a b | sub a b | mod a b | or a b | xor a b | shl a b | shr a b => simp [effectOf] at h

/-- What an instruction can raise (60_exceptions.md R197). -/
inductive Raised (i : Instr) (s : State) : Exception → Prop where
  | notImplemented (hi : i.mnemonic.handled = false) : Raised i s (.notImplemented i.mnemonic.opcode)
  | outOfRange (n : Nat) (hn : 8 ≤ n) (hi : i.mnemonic.handled = true) : Raised i s (.outOfRange .reg n)
  | divisionByZero (a b : Nat) (ha : a < 8) (hb : b < 8) (h0 : s.x[b] = 0#8) (hi : i = .div a b) :
      Raised i s (.divisionByZero b)

theorem thenAdvance_raised {n : Nat} {e : Exception} {r : Except Exception State}
    (h : thenAdvance n r = .error e) : r = .error e := by
  cases r with
  | ok u => simp at h
  | error e' => simpa using h

theorem oneRegister_raised {f : Byte → Byte} {a : Nat} {s : State} {e : Exception}
    (h : oneRegister f a s = .error e) : ∃ n, 8 ≤ n ∧ e = .outOfRange .reg n := by
  rcases Nat.lt_or_ge a 8 with ha | ha
  · simp [oneRegister_ok f s ha] at h
  · rw [oneRegister_error f s ha] at h; exact ⟨a, ha, (Except.error.inj h).symm⟩

theorem twoRegister_raised {f : Byte → Byte → Byte} {a b : Nat} {s : State} {e : Exception}
    (h : twoRegister f a b s = .error e) : ∃ n, 8 ≤ n ∧ e = .outOfRange .reg n := by
  rcases Nat.lt_or_ge a 8 with ha | ha
  · rcases Nat.lt_or_ge b 8 with hb | hb
    · simp [twoRegister_ok f s ha hb] at h
    · rw [twoRegister_error_b f s ha hb] at h; exact ⟨b, hb, (Except.error.inj h).symm⟩
  · rw [twoRegister_error_a f s b ha] at h; exact ⟨a, ha, (Except.error.inj h).symm⟩

theorem jumpTo_raised {a : Nat} {s : State} {e : Exception} (h : jumpTo a s = .error e) :
    ∃ n, 8 ≤ n ∧ e = .outOfRange .reg n := by
  rcases Nat.lt_or_ge a 8 with ha | ha
  · simp [jumpTo_ok s ha] at h
  · rw [jumpTo_error s ha] at h; exact ⟨a, ha, (Except.error.inj h).symm⟩

theorem branch_raised {c : Bool} {a : Nat} {s : State} {e : Exception}
    (h : (if c then jumpTo a s else .ok (s.setPc (s.pc + 2))) = .error e) :
    ∃ n, 8 ≤ n ∧ e = .outOfRange .reg n := by
  cases c with
  | true => exact jumpTo_raised h
  | false => simp at h

/-- Everything an effect can raise. -/
theorem effectOf_raised {i : Instr} {s : State} {e : Exception} (h : effectOf i s = .error e) : Raised i s e := by
  have range : i.mnemonic.handled = true → (∃ n, 8 ≤ n ∧ e = .outOfRange .reg n) → Raised i s e := by
    rintro hi ⟨n, hn, rfl⟩; exact .outOfRange n hn hi
  cases i with
  | add a b => exact range rfl (twoRegister_raised (thenAdvance_raised h))
  | mul a b => exact range rfl (twoRegister_raised (thenAdvance_raised h))
  | and a b => exact range rfl (twoRegister_raised (thenAdvance_raised h))
  | inc a => exact range rfl (oneRegister_raised (thenAdvance_raised h))
  | dec a => exact range rfl (oneRegister_raised (thenAdvance_raised h))
  | jmp a => exact range rfl (jumpTo_raised h)
  | jeq a => exact range rfl (branch_raised h)
  | jne a => exact range rfl (branch_raised h)
  | div a b =>
    replace h := thenAdvance_raised h
    rcases Nat.lt_or_ge a 8 with ha | ha
    · rcases Nat.lt_or_ge b 8 with hb | hb
      · by_cases h0 : s.x[b] = 0#8
        · rw [divEffect_zero s ha hb h0] at h
          exact Except.error.inj h ▸ .divisionByZero a b ha hb h0 rfl
        · simp [divEffect_ok s ha hb h0] at h
      · rw [divEffect_error_b s ha hb] at h; exact range rfl ⟨b, hb, (Except.error.inj h).symm⟩
    · rw [divEffect_error_a s b ha] at h; exact range rfl ⟨a, ha, (Except.error.inj h).symm⟩
  | cmp a b =>
    replace h := thenAdvance_raised h
    rcases Nat.lt_or_ge a 8 with ha | ha
    · rcases Nat.lt_or_ge b 8 with hb | hb
      · simp [cmpEffect_ok s ha hb] at h
      · rw [cmpEffect_error_b s ha hb] at h; exact range rfl ⟨b, hb, (Except.error.inj h).symm⟩
    · rw [cmpEffect_error_a s b ha] at h; exact range rfl ⟨a, ha, (Except.error.inj h).symm⟩
  | ldi a imm =>
    replace h := thenAdvance_raised h
    rcases Nat.lt_or_ge a 8 with ha | ha
    · simp [ldiEffect, s.writeReg_ok _ ha] at h
    · rw [ldiEffect, s.writeReg_error _ ha] at h; exact range rfl ⟨a, ha, (Except.error.inj h).symm⟩
  | prn a =>
    replace h := thenAdvance_raised h
    rcases Nat.lt_or_ge a 8 with ha | ha
    · simp [prnEffect_ok s ha] at h
    · rw [prnEffect_error s ha] at h; exact range rfl ⟨a, ha, (Except.error.inj h).symm⟩
  | push a =>
    replace h := thenAdvance_raised h
    rcases Nat.lt_or_ge a 8 with ha | ha
    · simp [pushEffect_ok s ha] at h
    · rw [pushEffect_error s ha] at h; exact range rfl ⟨a, ha, (Except.error.inj h).symm⟩
  | pop a =>
    replace h := thenAdvance_raised h
    rcases Nat.lt_or_ge a 8 with ha | ha
    · simp [popEffect_ok s ha] at h
    · rw [popEffect_error s ha] at h; exact range rfl ⟨a, ha, (Except.error.inj h).symm⟩
  | call a =>
    rcases Nat.lt_or_ge a 8 with ha | ha
    · simp [effectOf, callEffect_ok s ha] at h
    · rw [effectOf, callEffect_error s ha] at h; exact range rfl ⟨a, ha, (Except.error.inj h).symm⟩
  | ret => simp [effectOf, retEffect_eq] at h
  | hlt => simp [effectOf] at h
  | nop | iret | pra a | int a | jgt a | jlt a | jle a | jge a | not a =>
    exact Except.error.inj h ▸ .notImplemented rfl
  | ld a b | st a b | sub a b | mod a b | or a b | xor a b | shl a b | shr a b =>
    exact Except.error.inj h ▸ .notImplemented rfl

end Sys2Proof.Machine
end

