-- ==== Sys2Proof/Laws/PerInstr.lean ====
section
/-! SUPPORT. The laws stated per instruction. `OpcodeLength`: the operand count in the top two bits of the opcode byte is
the number of operand bytes, so that an instruction is 1 + `op[7:6]` bytes long (30_encoding.md R50, R53). -/

namespace Sys2Proof.Laws.OpcodeLength

/-- The length of the encoding is told by the opcode byte (R53). -/
def Statement (i : Instr) : Prop :=
  opCnt i.mnemonic.opcode = i.operandBytes.length ∧ (encode i).length = 1 + opCnt i.mnemonic.opcode

/-- The operand count gives the length. -/
theorem of_count {i : Instr} (m : Mnemonic) (n : Nat) (hm : i.mnemonic = m) (hc : opCnt m.opcode = n)
    (hl : i.operandBytes.length = n) : Statement i := by
  subst hm
  exact ⟨hc.trans hl.symm, by rw [encode, List.length_cons, hc, hl, Nat.add_comm]⟩

theorem nop : Statement .nop := of_count .nop 0 rfl (by decide) rfl
theorem hlt : Statement .hlt := of_count .hlt 0 rfl (by decide) rfl
theorem ret : Statement .ret := of_count .ret 0 rfl (by decide) rfl
theorem iret : Statement .iret := of_count .iret 0 rfl (by decide) rfl
theorem push (a : Nat) : Statement (.push a) := of_count .push 1 rfl (by decide) rfl
theorem pop (a : Nat) : Statement (.pop a) := of_count .pop 1 rfl (by decide) rfl
theorem prn (a : Nat) : Statement (.prn a) := of_count .prn 1 rfl (by decide) rfl
theorem pra (a : Nat) : Statement (.pra a) := of_count .pra 1 rfl (by decide) rfl
theorem call (a : Nat) : Statement (.call a) := of_count .call 1 rfl (by decide) rfl
theorem int (a : Nat) : Statement (.int a) := of_count .int 1 rfl (by decide) rfl
theorem jmp (a : Nat) : Statement (.jmp a) := of_count .jmp 1 rfl (by decide) rfl
theorem jeq (a : Nat) : Statement (.jeq a) := of_count .jeq 1 rfl (by decide) rfl
theorem jne (a : Nat) : Statement (.jne a) := of_count .jne 1 rfl (by decide) rfl
theorem jgt (a : Nat) : Statement (.jgt a) := of_count .jgt 1 rfl (by decide) rfl
theorem jlt (a : Nat) : Statement (.jlt a) := of_count .jlt 1 rfl (by decide) rfl
theorem jle (a : Nat) : Statement (.jle a) := of_count .jle 1 rfl (by decide) rfl
theorem jge (a : Nat) : Statement (.jge a) := of_count .jge 1 rfl (by decide) rfl
theorem inc (a : Nat) : Statement (.inc a) := of_count .inc 1 rfl (by decide) rfl
theorem dec (a : Nat) : Statement (.dec a) := of_count .dec 1 rfl (by decide) rfl
theorem not (a : Nat) : Statement (.not a) := of_count .not 1 rfl (by decide) rfl
theorem ldi (a : Nat) (imm : Byte) : Statement (.ldi a imm) := of_count .ldi 2 rfl (by decide) rfl
theorem ld (a b : Nat) : Statement (.ld a b) := of_count .ld 2 rfl (by decide) rfl
theorem st (a b : Nat) : Statement (.st a b) := of_count .st 2 rfl (by decide) rfl
theorem add (a b : Nat) : Statement (.add a b) := of_count .add 2 rfl (by decide) rfl
theorem sub (a b : Nat) : Statement (.sub a b) := of_count .sub 2 rfl (by decide) rfl
theorem mul (a b : Nat) : Statement (.mul a b) := of_count .mul 2 rfl (by decide) rfl
theorem div (a b : Nat) : Statement (.div a b) := of_count .div 2 rfl (by decide) rfl
theorem mod (a b : Nat) : Statement (.mod a b) := of_count .mod 2 rfl (by decide) rfl
theorem cmp (a b : Nat) : Statement (.cmp a b) := of_count .cmp 2 rfl (by decide) rfl
theorem and (a b : Nat) : Statement (.and a b) := of_count .and 2 rfl (by decide) rfl
theorem or (a b : Nat) : Statement (.or a b) := of_count .or 2 rfl (by decide) rfl
theorem xor (a b : Nat) : Statement (.xor a b) := of_count .xor 2 rfl (by decide) rfl
theorem shl (a b : Nat) : Statement (.shl a b) := of_count .shl 2 rfl (by decide) rfl
theorem shr (a b : Nat) : Statement (.shr a b) := of_count .shr 2 rfl (by decide) rfl

end Sys2Proof.Laws.OpcodeLength
end

