-- ==== Sys2Proof/Machine/Listing.lean ====
section
/-! DEFINITION. The assembly text of an instruction, the notation the spec fixes for its listings (30_encoding.md R61). No part
of the machine reads it. -/

namespace Sys2Proof

/-- The mnemonic in capitals (R61, the column of R56). -/
def Mnemonic.name : Mnemonic → List Char
  | .nop => ['N', 'O', 'P']
  | .hlt => ['H', 'L', 'T']
  | .ret => ['R', 'E', 'T']
  | .iret => ['I', 'R', 'E', 'T']
  | .push => ['P', 'U', 'S', 'H']
  | .pop => ['P', 'O', 'P']
  | .prn => ['P', 'R', 'N']
  | .pra => ['P', 'R', 'A']
  | .call => ['C', 'A', 'L', 'L']
  | .int => ['I', 'N', 'T']
  | .jmp => ['J', 'M', 'P']
  | .jeq => ['J', 'E', 'Q']
  | .jne => ['J', 'N', 'E']
  | .jgt => ['J', 'G', 'T']
  | .jlt => ['J', 'L', 'T']
  | .jle => ['J', 'L', 'E']
  | .jge => ['J', 'G', 'E']
  | .inc => ['I', 'N', 'C']
  | .dec => ['D', 'E', 'C']
  | .not => ['N', 'O', 'T']
  | .ldi => ['L', 'D', 'I']
  | .ld => ['L', 'D']
  | .st => ['S', 'T']
  | .add => ['A', 'D', 'D']
  | .sub => ['S', 'U', 'B']
  | .mul => ['M', 'U', 'L']
  | .div => ['D', 'I', 'V']
  | .mod => ['M', 'O', 'D']
  | .cmp => ['C', 'M', 'P']
  | .and => ['A', 'N', 'D']
  | .or => ['O', 'R']
  | .xor => ['X', 'O', 'R']
  | .shl => ['S', 'H', 'L']
  | .shr => ['S', 'H', 'R']

/-- The decimal numeral of a byte (R61: an immediate, a register number). -/
def decimal (v : Byte) : List Char :=
  let digit := fun n : Nat => Char.ofNat (48 + n % 10)
  let n := v.toNat
  if n < 10 then [digit n]
  else if n < 100 then [digit (n / 10), digit n]
  else [digit (n / 100), digit (n / 10), digit n]

/-- A register operand, `R<n>` (R61). -/
def registerText (v : Byte) : List Char := 'R' :: decimal v

/-- The operands after the mnemonic: registers, or for LDI a register and an immediate, separated by a comma (R61). -/
def operandText (i : Instr) : List Char :=
  match i.mnemonic, i.operandBytes with
  | .ldi, [a, imm] => ' ' :: registerText a ++ ',' :: decimal imm
  | _, [a] => ' ' :: registerText a
  | _, [a, b] => ' ' :: registerText a ++ ',' :: registerText b
  | _, _ => []

/-- The line of assembly of an instruction (R61). -/
def Instr.text (i : Instr) : List Char := i.mnemonic.name ++ operandText i

end Sys2Proof
end

