-- ==== Sys2Proof/Tests/Slice0.lean ====
section
/-! SUPPORT. The model's own tests: small checks whose expected results are those of spec/95_test_vectors.md (its vector is
named at each) or are worked out by hand from a rule, and a witness for the hypotheses of each obligation. -/

namespace Sys2Proof.Tests

open Machine

/-! ## Helpers -/

/-- The launch state of an image (70_reset_and_hazards.md R214); the reset state where the image is refused. -/
def launched (image : List Byte) : State :=
  match launch image with
  | .ok s => s
  | .error _ => State.reset

/-- `s` with `bytes` stored from address `a` on and `pc` there. -/
def at_ (a : Nat) (bytes : List Byte) (s : State) : State :=
  match State.storeFrom a bytes s with
  | .ok t => t.setPc a
  | .error _ => s

/-- `s` with `x[i]` holding `v`. -/
def holding (i : Nat) (v : Byte) (s : State) : State :=
  match s.writeReg i v with
  | .ok t => t
  | .error _ => s

/-- The next state of an outcome. -/
def nextOf : Host.Outcome State Fault Refusal → Option State
  | .next t => some t
  | .fault _ | .refused _ => none

/-- The state after one step. -/
def after (s : State) : Option State := nextOf (step s)

/-- What a step left in the control registers. -/
def control (s : State) : RunStatus × Cause × Option FaultInfo × Nat := (s.status, s.cause, s.info, s.pc)

/-- The control registers of a core that faulted at `pc` with this cause and detail. -/
def faultedAt (pc : Nat) (c : Cause) (d : Detail) : RunStatus × Cause × Option FaultInfo × Nat :=
  (.faulted, c, some ⟨pc, d⟩, pc)

/-! ## WellFormed: ill-formed terms are refused, every operand at its edges -/

theorem test_wellFormed_refuses_one_operand :
    [Instr.push 256, .pop 256, .prn 256, .pra 256, .call 256, .int 256, .jmp 256, .jeq 256, .jne 256, .jgt 256, .jlt 256,
      .jle 256, .jge 256, .inc 256, .dec 256, .not 256, .ldi 256 0].all (fun i => !i.wellFormed) = true := by decide

theorem test_wellFormed_refuses_first_operand :
    [Instr.ld 256 0, .st 256 0, .add 256 0, .sub 256 0, .mul 256 0, .div 256 0, .mod 256 0, .cmp 256 0, .and 256 0,
      .or 256 0, .xor 256 0, .shl 256 0, .shr 256 0].all (fun i => !i.wellFormed) = true := by decide

theorem test_wellFormed_refuses_second_operand :
    [Instr.ld 0 256, .st 0 256, .add 0 256, .sub 0 256, .mul 0 256, .div 0 256, .mod 0 256, .cmp 0 256, .and 0 256,
      .or 0 256, .xor 0 256, .shl 0 256, .shr 0 256].all (fun i => !i.wellFormed) = true := by decide

/-- R59: an index of 8 or more is an operand byte like any other. -/
theorem test_wellFormed_accepts_every_byte :
    [Instr.add 255 255, .ldi 255 255, .push 255, .nop, .shr 8 9].all Instr.wellFormed = true := by decide

/-! ## Decoding: every constructor's word, written from 30_encoding.md R50 and R56 -/

theorem test_decode_F0 :
    decode [0b00000000#8] = .ok (.nop, []) ∧ decode [0b00000001#8] = .ok (.hlt, []) ∧
    decode [0b00010001#8] = .ok (.ret, []) ∧ decode [0b00010011#8] = .ok (.iret, []) := by decide

theorem test_decode_F1 :
    decode [0b01000101#8, 0b00000001#8] = .ok (.push 1, []) ∧ decode [0b01000110#8, 0b00000010#8] = .ok (.pop 2, []) ∧
    decode [0b01000111#8, 0b00000011#8] = .ok (.prn 3, []) ∧ decode [0b01001000#8, 0b00000100#8] = .ok (.pra 4, []) ∧
    decode [0b01010000#8, 0b00000101#8] = .ok (.call 5, []) ∧ decode [0b01010010#8, 0b00000110#8] = .ok (.int 6, []) ∧
    decode [0b01010100#8, 0b00000111#8] = .ok (.jmp 7, []) ∧ decode [0b01010101#8, 0b00001000#8] = .ok (.jeq 8, []) ∧
    decode [0b01010110#8, 0b10000000#8] = .ok (.jne 128, []) := by decide

theorem test_decode_F1_unhandled_jumps :
    decode [0b01010111#8, 0b00000001#8] = .ok (.jgt 1, []) ∧ decode [0b01011000#8, 0b00000010#8] = .ok (.jlt 2, []) ∧
    decode [0b01011001#8, 0b00000011#8] = .ok (.jle 3, []) ∧ decode [0b01011010#8, 0b11111111#8] = .ok (.jge 255, []) := by
  decide

theorem test_decode_F1_alu :
    decode [0b01100101#8, 0b00000010#8] = .ok (.inc 2, []) ∧ decode [0b01100110#8, 0b00000001#8] = .ok (.dec 1, []) ∧
    decode [0b01101001#8, 0b00000111#8] = .ok (.not 7, []) := by decide

theorem test_decode_F2 :
    decode [0b10000010#8, 0b00000011#8, 0b11111111#8] = .ok (.ldi 3 255, []) ∧
    decode [0b10000011#8, 0b00000001#8, 0b00000010#8] = .ok (.ld 1 2, []) ∧
    decode [0b10000100#8, 0b00000010#8, 0b00000001#8] = .ok (.st 2 1, []) := by decide

theorem test_decode_F2_alu :
    decode [0b10100000#8, 0b00000000#8, 0b00000001#8] = .ok (.add 0 1, []) ∧
    decode [0b10100001#8, 0b00000001#8, 0b00000000#8] = .ok (.sub 1 0, []) ∧
    decode [0b10100010#8, 0b00000010#8, 0b00000011#8] = .ok (.mul 2 3, []) ∧
    decode [0b10100011#8, 0b00000001#8, 0b00000011#8] = .ok (.div 1 3, []) ∧
    decode [0b10100100#8, 0b00000100#8, 0b00000101#8] = .ok (.mod 4 5, []) ∧
    decode [0b10100111#8, 0b00000001#8, 0b00000010#8] = .ok (.cmp 1 2, []) := by decide

theorem test_decode_F2_bitwise :
    decode [0b10101000#8, 0b00000010#8, 0b00000001#8] = .ok (.and 2 1, []) ∧
    decode [0b10101010#8, 0b00000110#8, 0b00000111#8] = .ok (.or 6 7, []) ∧
    decode [0b10101011#8, 0b00000111#8, 0b00000110#8] = .ok (.xor 7 6, []) ∧
    decode [0b10101100#8, 0b00001000#8, 0b00000001#8] = .ok (.shl 8 1, []) ∧
    decode [0b10101101#8, 0b00000001#8, 0b00001001#8] = .ok (.shr 1 9, []) := by decide

/-- V1, the rows without a mnemonic: bytes next to those of the table. -/
theorem test_decode_rejects :
    [0x02#8, 0xA5#8, 0xB0#8, 0xC0#8, 0xFF#8].all (fun op => (decodeOpcode op).isNone) = true ∧
    decode [0xC0#8, 0#8, 0#8] = .error (.unknownOpcode 0xC0#8) ∧ decode [0xA0#8, 1#8] = .error .truncated ∧
    decode [] = .error .truncated := by decide

/-- V1: the derived fields of the sample bytes. -/
theorem test_derived_fields :
    [0x00#8, 0x11#8, 0x47#8, 0x50#8, 0x65#8, 0x82#8, 0xA7#8, 0xB0#8, 0xC0#8, 0xFF#8].map
      (fun op => (opCnt op, opAlu op, opSetpc op)) =
    [(0, false, false), (0, false, true), (1, false, false), (1, false, true), (1, true, false), (2, false, false),
      (2, true, false), (2, true, true), (3, false, false), (3, true, true)] := by decide

/-- The host's numbering: the opcode byte is bits 7..0, the operands above it. -/
theorem test_decodeTableWord :
    decodeTableWord 24 0x080082 = some (.ldi 0 8) ∧ decodeTableWord 16 0x0347 = some (.prn 3) ∧
    decodeTableWord 8 0x11 = some .ret ∧ decodeTableWord 8 0xFF = none := by decide

/-- R61: the listings of P1 and of a vector that provokes OutOfRange. -/
theorem test_assembly_text :
    (Instr.ldi 0 8).text = ['L', 'D', 'I', ' ', 'R', '0', ',', '8'] ∧
    (Instr.mul 0 1).text = ['M', 'U', 'L', ' ', 'R', '0', ',', 'R', '1'] ∧
    (Instr.prn 10).text = ['P', 'R', 'N', ' ', 'R', '1', '0'] ∧ Instr.hlt.text = ['H', 'L', 'T'] := by decide

/-! ## The cycle (V2) -/

/-- Y1, Y2. -/
theorem test_hlt_halts :
    (after (State.reset |> at_ 0x0B [0x01#8])).map control = some (.halted, .none, none, 0x0C) ∧
    (after (State.reset |> at_ 253 [0x01#8])).map control = some (.halted, .none, none, 254) := by decide

/-- Y3, Y4, Y8. -/
theorem test_fetch_at_the_top_faults :
    (after (State.reset |> at_ 254 [0x01#8])).map control = some (faultedAt 254 .outOfRange (.place .mem 256)) ∧
    (after (State.reset |> at_ 255 [0x01#8])).map control = some (faultedAt 255 .outOfRange (.place .mem 256)) ∧
    (after (State.reset |> at_ 254 [0x00#8])).map control = some (faultedAt 254 .outOfRange (.place .mem 256)) :=
  ⟨by decide, by decide, by decide⟩

/-- Y5, S2. -/
theorem test_unknown_opcode_precedes_the_operand_fetch :
    (after (State.reset |> at_ 255 [0xFF#8])).map control = some (faultedAt 255 .unknownOpcode (.opcode 0xFF#8)) ∧
    (after (launched [0xFF#8])).map control = some (faultedAt 0 .unknownOpcode (.opcode 0xFF#8)) := by decide

/-- Y6, Y7. -/
theorem test_falling_off_the_top :
    ((after (State.reset |> at_ 253 [0x82#8, 0x01#8, 0x09#8])).map fun t => (t.x[1], t.pc, t.status)) =
      some (9, 256, .running) ∧
    (after (State.reset.setPc 256)).map control = some (faultedAt 256 .outOfRange (.place .mem 256)) := by decide

/-- Y10, Y11: the order of the tests of one instruction. -/
theorem test_fault_priority :
    (after (launched [0xA3#8, 0x09#8, 0x00#8])).map control = some (faultedAt 0 .outOfRange (.place .reg 9)) ∧
    (after (launched [0xA3#8, 0x00#8, 0x09#8])).map control = some (faultedAt 0 .outOfRange (.place .reg 9)) := by decide

/-- Y12. -/
theorem test_no_step_after_halt :
    after ({ State.reset with status := .halted, pc := 12 }) = some { State.reset with status := .halted, pc := 12 } := by
  decide

/-! ## The ALU (V3) -/

/-- A1, A5, A6. -/
theorem test_add_wraps :
    ((after (launched [0xA0#8, 0#8, 1#8] |> holding 0 200#8 |> holding 1 100#8)).map fun t =>
      (t.x[0], t.x[1], t.pc, t.fl)) = some (44, 100, 3, .unset) ∧
    ((after (launched [0xA0#8, 0#8, 0#8] |> holding 0 130#8)).map fun t => t.x[0]) = some 4 ∧
    ((after (launched [0xA0#8, 7#8, 1#8] |> holding 1 0x10#8)).map fun t => t.x[7]) = some 0x04 := by decide

/-- A7. -/
theorem test_add_index_out_of_range :
    (after (launched [0xA0#8, 8#8, 1#8])).map control = some (faultedAt 0 .outOfRange (.place .reg 8)) := by decide

/-- M1, M3, M6. -/
theorem test_mul_keeps_the_low_byte :
    ((after (launched [0xA2#8, 0#8, 1#8] |> holding 0 8#8 |> holding 1 9#8)).map fun t => (t.x[0], t.x[1], t.pc)) =
      some (72, 9, 3) ∧
    ((after (launched [0xA2#8, 0#8, 1#8] |> holding 0 255#8 |> holding 1 255#8)).map fun t => t.x[0]) = some 1 ∧
    ((after (launched [0xA2#8, 0#8, 0#8] |> holding 0 20#8)).map fun t => t.x[0]) = some 144 := by decide

/-- D1, D2, D7. -/
theorem test_div_rounds_down :
    ((after (launched [0xA3#8, 0#8, 1#8] |> holding 0 100#8 |> holding 1 7#8)).map fun t => (t.x[0], t.pc)) =
      some (14, 3) ∧
    ((after (launched [0xA3#8, 0#8, 1#8] |> holding 0 7#8 |> holding 1 8#8)).map fun t => t.x[0]) = some 0 ∧
    ((after (launched [0xA3#8, 0#8, 0#8] |> holding 0 9#8)).map fun t => t.x[0]) = some 1 := by decide

/-- D6, D8. -/
theorem test_div_by_zero :
    ((after (launched [0xA3#8, 0#8, 1#8] |> holding 0 5#8)).map fun t => (control t, t.x[0])) =
      some (faultedAt 0 .divisionByZero (.divisor 1), 5) ∧
    (after (launched [0xA3#8, 0#8, 0#8])).map control = some (faultedAt 0 .divisionByZero (.divisor 0)) :=
  ⟨by decide, by decide⟩

/-- I2, I3. -/
theorem test_inc_wraps_and_ignores_b :
    ((after (launched [0x65#8, 0#8] |> holding 0 255#8)).map fun t => t.x[0]) = some 0 ∧
    ((after (launched [0x65#8, 0#8, 0xFF#8])).map fun t => (t.x[0], t.pc)) = some (1, 2) := by decide

/-- I4. -/
theorem test_inc_index_out_of_range :
    (after (launched [0x65#8, 9#8])).map control = some (faultedAt 0 .outOfRange (.place .reg 9)) := by decide

/-- E1, E2. -/
theorem test_dec_wraps :
    ((after (launched [0x66#8, 0#8] |> holding 0 1#8)).map fun t => (t.x[0], t.pc, t.fl)) = some (0, 2, .unset) ∧
    ((after (launched [0x66#8, 0#8])).map fun t => t.x[0]) = some 255 := by decide

/-- N1, N2. -/
theorem test_and_is_bitwise :
    ((after (launched [0xA8#8, 0#8, 1#8] |> holding 0 44#8 |> holding 1 100#8)).map fun t => (t.x[0], t.pc)) =
      some (36, 3) ∧
    ((after (launched [0xA8#8, 0#8, 1#8] |> holding 0 0xF0#8 |> holding 1 0x3C#8)).map fun t => t.x[0]) =
      some 0x30 := by decide

/-- C1, C3. -/
theorem test_cmp_writes_the_flag :
    ((after (launched [0xA7#8, 0#8, 1#8] |> holding 0 7#8 |> holding 1 7#8)).map fun t => (t.fl, t.x[0], t.pc)) =
      some (.isTrue, 7, 3) ∧
    ((after ((launched [0xA7#8, 0#8, 1#8] |> holding 1 255#8).setFlag .isTrue)).map fun t => t.fl) = some .isFalse := by
  decide

/-- C5. -/
theorem test_cmp_out_of_range_keeps_the_flag :
    ((after ((launched [0xA7#8, 0#8, 8#8]).setFlag .isTrue)).map fun t => (control t, t.fl)) =
      some (faultedAt 0 .outOfRange (.place .reg 8), .isTrue) := by decide

/-- X1 to X7, Y9: the operands are not examined. -/
theorem test_unimplemented_alu_faults :
    [0xA1#8, 0xA4#8, 0x69#8, 0xAA#8, 0xAB#8, 0xAC#8, 0xAD#8].map
      (fun op => (after (launched [op, 9#8, 9#8])).map control) =
    [0xA1#8, 0xA4#8, 0x69#8, 0xAA#8, 0xAB#8, 0xAC#8, 0xAD#8].map
      (fun op => some (faultedAt 0 .notImplemented (.opcode op))) := by decide

/-! ## Load-immediate, print, stack (V4) -/

/-- L1, L3, L5. -/
theorem test_ldi :
    ((after (launched [0x82#8, 0#8, 8#8])).map fun t => (t.x[0], t.pc)) = some (8, 3) ∧
    ((after (launched [0x82#8, 7#8, 0x80#8])).map fun t => t.x[7]) = some 0x80 ∧
    ((after (launched [0x82#8, 0#8, 9#8])).map fun t => (t.x[0], t.status)) = some (9, .running) := by decide

/-- L4. -/
theorem test_ldi_index_out_of_range :
    (after (launched [0x82#8, 8#8, 1#8])).map control = some (faultedAt 0 .outOfRange (.place .reg 8)) := by decide

/-- Q1, Q2. -/
theorem test_prn_emits :
    ((after (launched [0x47#8, 0#8] |> holding 0 72#8)).map fun t => (t.out, t.pc)) = some ([72], 2) ∧
    ((after (launched [0x47#8, 7#8])).map fun t => t.out) = some [244] := by decide

/-- Q3. -/
theorem test_prn_index_out_of_range :
    ((after (launched [0x47#8, 10#8])).map fun t => (control t, t.out)) =
      some (faultedAt 0 .outOfRange (.place .reg 10), []) := by decide

/-- K1, K2, K3. -/
theorem test_push :
    ((after (launched [0x45#8, 0#8] |> holding 0 44#8)).map fun t =>
      (t.x[7], Memory.read t.mem 0xF3, t.x[0], t.pc)) = some (0xF3, 44, 44, 2) ∧
    ((after (launched [0x45#8, 0#8] |> holding 0 0x5A#8 |> holding 7 0#8)).map fun t =>
      (t.x[7], Memory.read t.mem 0xFF)) = some (0xFF, 0x5A) ∧
    ((after (launched [0x45#8, 7#8])).map fun t => (t.x[7], Memory.read t.mem 0xF3)) = some (0xF3, 0xF3) := by decide

/-- K8, K10. -/
theorem test_push_edges :
    ((after (launched [0x45#8, 8#8])).map fun t => (control t, t.x[7], Memory.read t.mem 0xF3)) =
      some (faultedAt 0 .outOfRange (.place .reg 8), 0xF4, 0) ∧
    ((after (launched [0x45#8, 0#8] |> holding 7 2#8 |> holding 0 0x99#8)).map fun t =>
      (t.x[7], Memory.read t.mem 1, t.pc)) = some (1, 0x99, 2) := by decide

/-- K4, K6, K7. -/
theorem test_pop :
    ((after ((State.reset |> at_ 0xF3 [44#8] |> at_ 0 [0x46#8, 2#8]) |> holding 7 0xF3#8)).map fun t =>
      (t.x[2], t.x[7], Memory.read t.mem 0xF3, t.pc)) = some (44, 0xF4, 44, 2) ∧
    ((after ((State.reset |> at_ 0xFF [0x5A#8] |> at_ 0 [0x46#8, 1#8]) |> holding 7 0xFF#8)).map fun t =>
      (t.x[1], t.x[7])) = some (0x5A, 0) ∧
    ((after ((State.reset |> at_ 0xF3 [0x20#8] |> at_ 0 [0x46#8, 7#8]) |> holding 7 0xF3#8)).map fun t => t.x[7]) =
      some 0x21 := by decide

/-- K5, K9. -/
theorem test_pop_edges :
    ((after (launched [0x46#8, 2#8])).map fun t => (t.x[2], t.x[7], t.status)) = some (0, 0xF5, .running) ∧
    ((after (launched [0x46#8, 8#8])).map fun t => (control t, t.x[7])) =
      some (faultedAt 0 .outOfRange (.place .reg 8), 0xF4) := by decide

/-! ## Control transfer (V5) -/

/-- J1, J16, J18. -/
theorem test_jmp :
    ((after (launched [0x54#8, 3#8] |> holding 3 0x0C#8)).map fun t => t.pc) = some 0x0C ∧
    (after (launched [0x54#8, 8#8])).map control = some (faultedAt 0 .outOfRange (.place .reg 8)) ∧
    (after (launched [0x54#8, 0#8] |> holding 0 0xFE#8)).map control = some (.running, .none, none, 0xFE) := by decide

/-- J3, J4, J11. -/
theorem test_jeq :
    ((after ((State.reset |> at_ 0x10 [0x55#8, 2#8] |> holding 2 0x20#8).setFlag .isTrue)).map fun t => t.pc) =
      some 0x20 ∧
    ((after ((State.reset |> at_ 0x10 [0x55#8, 2#8] |> holding 2 0x20#8).setFlag .isFalse)).map fun t => t.pc) =
      some 0x12 ∧
    ((after (launched [0x55#8, 2#8] |> holding 2 0x20#8)).map fun t => t.pc) = some 2 := by decide

/-- J13, J14. -/
theorem test_jeq_index :
    (after ((launched [0x55#8, 9#8]).setFlag .isFalse)).map control = some (.running, .none, none, 2) ∧
    (after ((launched [0x55#8, 9#8]).setFlag .isTrue)).map control =
      some (faultedAt 0 .outOfRange (.place .reg 9)) := by decide

/-- J5, J6, J15. -/
theorem test_jne :
    ((after ((State.reset |> at_ 0x14 [0x56#8, 3#8] |> holding 3 0x0C#8).setFlag .isFalse)).map fun t => t.pc) =
      some 0x0C ∧
    ((after ((State.reset |> at_ 0x14 [0x56#8, 3#8] |> holding 3 0x0C#8).setFlag .isTrue)).map fun t => t.pc) =
      some 0x16 ∧
    (after ((State.reset |> at_ 6 [0x56#8, 9#8]).setFlag .isFalse)).map control =
      some (faultedAt 6 .outOfRange (.place .reg 9)) := by decide

/-- J12: both values of FLAG_UNSET_AS_FALSE, in the effect and in the parametrised cycle. -/
theorem test_jne_unset :
    (cycle opcodeTable false (launched [0x56#8, 2#8] |> holding 2 0x20#8)).pc = 2 ∧
    (cycle opcodeTable true (launched [0x56#8, 2#8] |> holding 2 0x20#8)).pc = 0x20 := by decide

/-- J7, J8. -/
theorem test_call :
    ((after ((State.reset |> at_ 6 [0x50#8, 1#8]) |> holding 1 0x0B#8)).map fun t =>
      (t.x[7], Memory.read t.mem 0xF3, t.pc)) = some (0xF3, 0x08, 0x0B) ∧
    ((after (launched [0x50#8, 7#8])).map fun t => (t.x[7], Memory.read t.mem 0xF3, t.pc)) =
      some (0xF3, 0x02, 0xF3) := by decide

/-- J17. -/
theorem test_call_index_out_of_range :
    ((after (launched [0x50#8, 8#8])).map fun t => (control t, t.x[7], Memory.read t.mem 0xF3)) =
      some (faultedAt 0 .outOfRange (.place .reg 8), 0xF4, 0) := by decide

/-- J9, J10. -/
theorem test_ret :
    ((after ((State.reset |> at_ 0xF3 [0x08#8] |> at_ 0x0E [0x11#8]) |> holding 7 0xF3#8)).map fun t =>
      (t.pc, t.x[7])) = some (0x08, 0xF4) ∧
    ((after (launched [0x11#8])).map fun t => (t.pc, t.x[7], t.status)) = some (0, 0xF5, .running) := by decide

/-! ## Recognised instructions without a handler (V6) -/

/-- U1 to U10, each with operands 9 as in U11. -/
theorem test_no_handler_faults :
    [0x00#8, 0x83#8, 0x84#8, 0x48#8, 0x52#8, 0x13#8, 0x57#8, 0x58#8, 0x59#8, 0x5A#8].map
      (fun op => (after (launched [op, 9#8, 9#8])).map control) =
    [0x00#8, 0x83#8, 0x84#8, 0x48#8, 0x52#8, 0x13#8, 0x57#8, 0x58#8, 0x59#8, 0x5A#8].map
      (fun op => some (faultedAt 0 .notImplemented (.opcode op))) := by decide

/-- U3, U6: nothing but the fault registers changes. -/
theorem test_no_handler_changes_nothing :
    after (launched [0x84#8, 0#8, 1#8]) =
      some ((launched [0x84#8, 0#8, 1#8]).takeFault (.notImplemented 0x84#8)) ∧
    ((after (launched [0x13#8])).map fun t => t.x[7]) = some 0xF4 := by decide

/-! ## The host's side -/

/-- R18, R180: the codes. -/
theorem test_cause_codes :
    [Cause.none, .outOfRange, .unknownOpcode, .notImplemented, .divisionByZero].map Cause.code = [0, 1, 2, 3, 4] := by
  decide

/-- R17: the suggested encoding. -/
theorem test_status_codes : [RunStatus.running, .halted, .faulted].map RunStatus.code = [0, 1, 2] := by decide

/-- R215: blank lines and comments are skipped, a malformed line is named. -/
theorem test_parseLine :
    parseLine ['1', '0', '0', '0', '0', '0', '1', '0', ' ', '#', 'x'] = .byte 0x82#8 ∧ parseLine [] = .skipped ∧
    parseLine ['#', '1'] = .skipped ∧ parseLine ['1', '0', '2', '0', '0', '0', '1', '0'] = .malformed ∧
    parseLine ['1', '0', '0', '0', '0', '0', '1'] = .malformed := by decide

/-- withFetchWord puts the instruction where the next step runs it, from reset and from a `pc` where none can run. -/
theorem test_withFetchWord :
    ((after (State.reset.withFetchWord 24 0x080082)).map fun t => (t.x[0], t.pc)) = some (8, 3) ∧
    ((after ((State.reset.setPc 254).withFetchWord 8 0x01)).map control) = some (.halted, .none, none, 1) := by decide

/-! ## Witnesses: for each obligation with hypotheses, states and operands that meet all of them, at the edges of each clause -/

/-- A running core with a byte listed in memory, its flag TRUE, a divisor in `x[1]` and a zero in `x[2]`. -/
def sample : State :=
  { State.reset with mem := [(0xF0, 0x21#8)], x := #v[200, 100, 0, 0x0C, 0, 0, 5, 0xF4], pc := 6, fl := .isTrue }

theorem witness_ResetLeavesTheSpecValues :
    (0 ≤ 255 ∧ State.reset.memRead 0 = .ok 0) ∧ (255 ≤ 255 ∧ State.reset.memRead 255 = .ok 0) ∧
    (6 ≤ 6 ∧ State.reset.x[6]? = some 0) := by decide

/-- From the edge `pc` = 256, reached by the step from 253, and into a fault there. -/
theorem witness_EveryStepKeepsTheInvariant :
    (∃ t, Inv (State.reset |> at_ 253 [0x82#8, 1#8, 9#8]) ∧
      step (State.reset |> at_ 253 [0x82#8, 1#8, 9#8]) = .next t ∧ t.pc = 256) ∧
    ∃ t, Inv (State.reset.setPc 256) ∧ step (State.reset.setPc 256) = .next t ∧ t.status = .faulted :=
  ⟨⟨_, by decide, rfl, by decide⟩, ⟨_, by decide, rfl, by decide⟩⟩

theorem witness_MemoryPrimitivesCheckTheRange :
    Memory.wf sample.mem ∧ 255 < 256 ∧ sample.memRead 256 = .error (.outOfRange .mem 256) ∧
    255 ≤ 255 ∧ sample.memRead 255 = .ok 0 ∧ 0xF0 ≤ 255 ∧ sample.memRead 0xF0 = .ok 0x21 := by decide

theorem witness_CanonicalMemoryIsDeterminedByItsCells :
    Memory.wf [(0, 1#8), (255, 2#8)] ∧ Memory.wf (Memory.write (Memory.write [] 255 2#8) 0 1#8) ∧
    ∀ a : Nat, a ≤ 255 →
      Memory.read [(0, 1#8), (255, 2#8)] a = Memory.read (Memory.write (Memory.write [] 255 2#8) 0 1#8) a :=
  ⟨by decide, by decide, fun _ _ => rfl⟩

/-- The image of 256 bytes is taken, the 257th byte is refused, the empty image leaves the reset state. -/
theorem witness_LaunchStateHoldsTheImage :
    (List.replicate 256 1#8).length ≤ 256 ∧ 256 < (List.replicate 257 1#8).length ∧
    ([] : List Byte).length ≤ 256 ∧ launch [] = .ok State.reset :=
  ⟨by rw [List.length_replicate], by rw [List.length_replicate]; omega, by decide, rfl⟩

theorem witness_DecodeOfEncodeIsTheInstruction :
    (Instr.add 255 0).wellFormed = true ∧ decode (encode (.add 255 0) ++ [0x01#8]) = .ok (.add 255 0, [0x01#8]) ∧
    (Instr.ldi 7 255).wellFormed = true ∧ Instr.ret.wellFormed = true := by decide

theorem witness_EncodeOfDecodeIsTheBytes :
    decode [0x82#8, 0xFF#8, 0x00#8, 0x11#8] = .ok (.ldi 255 0, [0x11#8]) ∧
    encode (.ldi 255 0) ++ [0x11#8] = [0x82#8, 0xFF#8, 0x00#8, 0x11#8] := by decide

/-- At the last address an instruction can run from, 253. -/
theorem witness_StepRunsTheDecodedInstruction :
    let s := State.reset |> at_ 253 [0x65#8, 1#8, 0x00#8]
    s.status = .running ∧ s.pc ≤ 253 ∧ s.pc = 253 ∧
    decode [Memory.read s.mem s.pc, Memory.read s.mem (s.pc + 1), Memory.read s.mem (s.pc + 2)] =
      .ok (.inc 1, [0x00#8]) ∧ after s = nextOf (exec (.inc 1) s) := by decide

theorem witness_UnrecognisedByteFaults :
    let s := State.reset |> at_ 255 [0xFF#8]
    s.status = .running ∧ s.pc ≤ 255 ∧ s.pc = 255 ∧ decodeOpcode (Memory.read s.mem s.pc) = none := by decide

theorem witness_FetchOutsideMemoryFaults :
    (State.reset.setPc 256).status = .running ∧ 256 ≤ (State.reset.setPc 256).pc ∧
    (State.reset |> at_ 254 [0x01#8]).status = .running ∧ (State.reset |> at_ 254 [0x01#8]).pc = 254 ∧
    (decodeOpcode (Memory.read (State.reset |> at_ 254 [0x01#8]).mem 254)).isSome ∧
    (State.reset |> at_ 255 [0x11#8]).pc = 255 ∧
    (decodeOpcode (Memory.read (State.reset |> at_ 255 [0x11#8]).mem 255)).isSome := by decide

theorem witness_StepIsTheFourActionCycle :
    sample.status = .running ∧ after sample = some (cycle opcodeTable flagUnsetAsFalse sample) := by decide

theorem witness_UnsetPolicyMattersOnlyWhereUnsetIsRead :
    let s := launched [0x56#8, 2#8]
    s.status = .running ∧ ReadsUnset s ∧ sample.status = .running ∧ ¬ ReadsUnset sample ∧
    (s.setFlag .isFalse).status = .running ∧ ¬ ReadsUnset (s.setFlag .isFalse) :=
  ⟨rfl, ⟨rfl, 2, .inr rfl⟩, rfl, fun h => absurd h.1 (by decide), rfl, fun h => absurd h.1 (by decide)⟩

theorem witness_StoppedCoreStaysAsItIs :
    sample.halt.status ≠ .running ∧ (sample.takeFault (.divisionByZero 2)).status ≠ .running := by decide

theorem witness_FaultingStepChangesOnlyTheFaultRegisters :
    ∃ t, sample.status = .running ∧ step sample = .next t ∧ t.status = .faulted := ⟨_, rfl, rfl, rfl⟩

theorem witness_ProgramCounterLeavesMemoryOnlyFrom253 :
    ∃ t, (State.reset |> at_ 253 [0x82#8, 1#8, 9#8]).status = .running ∧
      (State.reset |> at_ 253 [0x82#8, 1#8, 9#8]).pc ≤ 255 ∧
      step (State.reset |> at_ 253 [0x82#8, 1#8, 9#8]) = .next t ∧ 256 ≤ t.pc := ⟨_, rfl, by decide, rfl, by decide⟩

theorem witness_OutputTraceIsAppendOnlyAndUnread :
    (∃ t, exec (.prn 7) sample = .next t ∧ t.out ≠ sample.out) ∧ ∃ t, exec (.push 0) sample = .next t ∧ t.out = sample.out :=
  ⟨⟨_, rfl, by decide⟩, ⟨_, rfl, rfl⟩⟩

theorem witness_FaultRegistersAreUnread :
    (∃ t, exec (.add 0 1) sample = .next t ∧ t.status = .running) ∧ ∃ t, exec .nop sample = .next t ∧ t.status = .faulted :=
  ⟨⟨_, rfl, rfl⟩, ⟨_, rfl, rfl⟩⟩

/-- One instruction for each of the three alternatives. -/
theorem witness_StatusIsWrittenOnlyByHaltAndFaults :
    (∃ t, exec (.inc 7) sample = .next t ∧ SameControl sample t) ∧ (∃ t, exec .hlt sample = .next t ∧ t.status = .halted) ∧
    ∃ t, exec (.inc 8) sample = .next t ∧ FaultTaken sample t :=
  ⟨⟨_, rfl, by decide⟩, ⟨_, rfl, rfl⟩, ⟨_, rfl, by decide⟩⟩

theorem witness_MemoryIsWrittenOnlyByPushAndCall :
    (∃ t, exec (.push 0) sample = .next t ∧ t.memRead 0xF3 ≠ sample.memRead 0xF3) ∧
    ∃ t, exec (.call 3) sample = .next t ∧ t.memRead 0xF3 ≠ sample.memRead 0xF3 :=
  ⟨⟨_, rfl, by simp only [ne_eq]; decide⟩, ⟨_, rfl, by simp only [ne_eq]; decide⟩⟩

/-- A zero divisor raises it, a divisor that is not zero and an index of 8 do not. -/
theorem witness_DivisionByZeroIsRaisedByDivAlone :
    sample.cause = .none ∧ (∃ t, exec (.div 7 2) sample = .next t ∧ t.cause = .divisionByZero) ∧
    (∃ t, exec (.div 0 1) sample = .next t ∧ t.cause = .none) ∧
    ∃ t, exec (.div 8 2) sample = .next t ∧ t.cause = .outOfRange := ⟨rfl, ⟨_, rfl, rfl⟩, ⟨_, rfl, rfl⟩, ⟨_, rfl, rfl⟩⟩

theorem witness_NotImplementedIsRaisedByTheUnhandledAlone :
    sample.cause = .none ∧ (∃ t, exec (.sub 9 9) sample = .next t ∧ t.cause = .notImplemented) ∧
    (∃ t, exec .hlt sample = .next t ∧ t.cause = .none) ∧
    Mnemonic.ldi ∉ [Mnemonic.add, .mul, .div, .inc, .dec, .and, .cmp] :=
  ⟨rfl, ⟨_, rfl, rfl⟩, ⟨_, rfl, rfl⟩, by decide⟩

/-- The index clauses of every statement about register operands: the last register, the first index out of range, and the
first operand in range with the second out of it. -/
theorem witness_register_indices : (7 < 8 ∧ 7 < 8) ∧ 8 ≤ 8 ∧ (7 < 8 ∧ 8 ≤ 8) ∧ 8 ≤ 255 := by decide

theorem witness_AddAndMulStoreModulo256 :
    (∃ t, exec (.add 7 7) sample = .next t ∧ t.x[7] = 0xE8) ∧ (∃ t, exec (.mul 7 0) sample = .next t ∧ t.x[7] = 0xA0) ∧
    (∃ t, exec (.add 8 9) sample = .next t ∧ t.info = some ⟨6, .place .reg 8⟩) ∧
    ∃ t, exec (.mul 7 8) sample = .next t ∧ t.info = some ⟨6, .place .reg 8⟩ :=
  ⟨⟨_, rfl, by decide⟩, ⟨_, rfl, by decide⟩, ⟨_, rfl, rfl⟩, ⟨_, rfl, rfl⟩⟩

theorem witness_DivStoresTheFloorQuotient :
    (7 < 8 ∧ sample.x[1].toNat ≠ 0 ∧ ∃ t, exec (.div 7 1) sample = .next t ∧ t.x[7] = 2) ∧
    (2 < 8 ∧ sample.x[2].toNat = 0 ∧ ∃ t, exec (.div 7 2) sample = .next t ∧ t.cause = .divisionByZero) ∧
    ∃ t, exec (.div 8 2) sample = .next t ∧ t.cause = .outOfRange :=
  ⟨⟨by decide, by decide, _, rfl, by decide⟩, ⟨by decide, by decide, _, rfl, rfl⟩, ⟨_, rfl, rfl⟩⟩

theorem witness_IncAndDecStepTheRegister :
    (∃ t, exec (.inc 7) sample = .next t ∧ t.x[7] = 0xF5) ∧ (∃ t, exec (.dec 2) sample = .next t ∧ t.x[2] = 255) ∧
    ∃ t, exec (.inc 8) sample = .next t ∧ t.status = .faulted :=
  ⟨⟨_, rfl, by decide⟩, ⟨_, rfl, by decide⟩, ⟨_, rfl, rfl⟩⟩

theorem witness_AndIsBitwise :
    (∃ t, exec (.and 0 7) sample = .next t ∧ t.x[0] = 0xC0) ∧
    (∃ t, exec (.and 8 0) sample = .next t ∧ t.status = .faulted) ∧
    ∃ t, exec (.and 7 8) sample = .next t ∧ t.status = .faulted := ⟨⟨_, rfl, by decide⟩, ⟨_, rfl, rfl⟩, ⟨_, rfl, rfl⟩⟩

theorem witness_CompareAloneWritesTheFlag :
    (sample.x[2] = sample.x[4] ∧ sample.x[0] ≠ sample.x[7]) ∧
    (∃ t, exec (.cmp 0 7) sample = .next t ∧ t.fl ≠ sample.fl ∧ t.fl = .isFalse) ∧
    ∃ t, exec (.cmp 7 8) sample = .next t ∧ t.status = .faulted ∧ t.fl = .isTrue :=
  ⟨by decide, ⟨_, rfl, by decide, rfl⟩, ⟨_, rfl, rfl, rfl⟩⟩

theorem witness_LoadImmediateWritesTheByte :
    (∃ t, exec (.ldi 7 255#8) sample = .next t ∧ t.x[7] = 255) ∧ ∃ t, exec (.ldi 8 0#8) sample = .next t ∧ t.status = .faulted :=
  ⟨⟨_, rfl, by decide⟩, ⟨_, rfl, rfl⟩⟩

theorem witness_PrintEmitsTheRegister :
    (∃ t, exec (.prn 7) sample = .next t ∧ t.out = [0xF4#8]) ∧ ∃ t, exec (.prn 8) sample = .next t ∧ t.out = [] :=
  ⟨⟨_, rfl, by decide⟩, ⟨_, rfl, rfl⟩⟩

theorem witness_PushStoresBelowTheStackPointer :
    Memory.wf sample.mem ∧ (∃ t, exec (.push 7) sample = .next t ∧ t.memRead 0xF3 = .ok 0xF3) ∧
    ∃ t, exec (.push 8) sample = .next t ∧ t.status = .faulted :=
  ⟨by decide, ⟨_, rfl, by decide⟩, ⟨_, rfl, rfl⟩⟩

theorem witness_PopLoadsFromTheStackPointer :
    (∃ t, exec (.pop 7) sample = .next t ∧ t.x[7] = 1) ∧ (∃ t, exec (.pop 6) sample = .next t ∧ t.x[7] = 0xF5) ∧
    ∃ t, exec (.pop 8) sample = .next t ∧ t.status = .faulted :=
  ⟨⟨_, rfl, by decide⟩, ⟨_, rfl, by decide⟩, ⟨_, rfl, rfl⟩⟩

/-- At the last `pc`, 251, with the stack pointer wrapping from 0 to 255. -/
theorem witness_PushThenPopMovesTheValue :
    let s := State.reset |> at_ 251 [0x45#8, 6#8, 0x46#8, 0#8] |> holding 7 0#8 |> holding 6 9#8
    6 ≤ 6 ∧ 0 ≤ 6 ∧ Memory.wf s.mem ∧ s.status = .running ∧ s.pc = 251 ∧ s.memRead s.pc = .ok 0x45 ∧
    s.memRead (s.pc + 1) = .ok (BitVec.ofNat 8 6) ∧ s.memRead (s.pc + 2) = .ok 0x46 ∧
    s.memRead (s.pc + 3) = .ok (BitVec.ofNat 8 0) ∧ (s.x[7].toNat + 255) % 256 ≠ s.pc + 2 ∧
    (s.x[7].toNat + 255) % 256 ≠ s.pc + 3 := by decide

theorem witness_JumpGoesToTheRegister :
    (∃ t, exec (.jmp 7) sample = .next t ∧ t.pc = 0xF4) ∧ ∃ t, exec (.jmp 8) sample = .next t ∧ t.status = .faulted :=
  ⟨⟨_, rfl, by decide⟩, ⟨_, rfl, rfl⟩⟩

theorem witness_JumpIfEqualTestsTheFlag :
    (sample.fl = .isTrue ∧ ∃ t, exec (.jeq 7) sample = .next t ∧ t.pc = 0xF4) ∧
    (∃ t, exec (.jeq 8) sample = .next t ∧ t.status = .faulted) ∧
    (sample.setFlag .unset).fl ≠ .isTrue ∧ ∃ t, exec (.jeq 8) (sample.setFlag .unset) = .next t ∧ t.pc = 8 :=
  ⟨⟨rfl, _, rfl, by decide⟩, ⟨_, rfl, rfl⟩, by decide, ⟨_, rfl, rfl⟩⟩

/-- Taken on FALSE, not taken on TRUE; on UNSET one of the two clauses applies, whatever the parameter is. -/
theorem witness_JumpIfNotEqualTestsTheFlag :
    ((sample.setFlag .isFalse).fl = .isFalse ∧ ∃ t, exec (.jne 7) (sample.setFlag .isFalse) = .next t ∧ t.pc = 0xF4) ∧
    (∃ t, exec (.jne 8) (sample.setFlag .isFalse) = .next t ∧ t.status = .faulted) ∧
    ¬ (sample.fl = .isFalse ∨ (sample.fl = .unset ∧ flagUnsetAsFalse = true)) ∧
    (∃ t, exec (.jne 8) sample = .next t ∧ t.pc = 8) ∧
    ¬ ((sample.setFlag .unset).fl = .isFalse ∨ ((sample.setFlag .unset).fl = .unset ∧ flagUnsetAsFalse = true)) :=
  ⟨⟨rfl, _, rfl, by decide⟩, ⟨_, rfl, rfl⟩, by decide, ⟨_, rfl, rfl⟩, by decide⟩

/-- At the last `pc`, 253. -/
theorem witness_CallPushesTheReturnAddress :
    Memory.wf (sample.setPc 253).mem ∧ (sample.setPc 253).pc ≤ 253 ∧
    (∃ t, exec (.call 7) (sample.setPc 253) = .next t ∧ t.pc = 0xF3 ∧ t.memRead 0xF3 = .ok 255) ∧
    ∃ t, exec (.call 8) (sample.setPc 253) = .next t ∧ t.status = .faulted :=
  ⟨by decide, by decide, ⟨_, rfl, by decide, by decide⟩, ⟨_, rfl, rfl⟩⟩

/-- The state just after the CALL serves as the state of the RET. -/
theorem witness_ReturnUndoesCall :
    ∃ t u, Memory.wf sample.mem ∧ sample.pc ≤ 253 ∧ 3 < 8 ∧ exec (.call 3) sample = .next t ∧ u.x[7] = t.x[7] ∧
      u.memRead u.x[7].toNat = t.memRead t.x[7].toNat ∧ u = t := ⟨_, _, by decide, by decide, by decide, rfl, rfl, rfl, rfl⟩

theorem witness_CompareDecidesTheJump :
    0 < 8 ∧ 7 < 8 ∧ 3 < 8 ∧ sample.x[0] ≠ sample.x[7] ∧ sample.x[2] = sample.x[4] := by decide

theorem witness_RegisterResultFrame :
    Instr.add 7 1 ∈ [Instr.ldi 7 9, .add 7 1, .mul 7 1, .div 7 1, .inc 7, .dec 7, .and 7 1] ∧
    (∃ t, exec (.add 7 1) sample = .next t ∧ SameControl sample t) ∧
    Instr.div 7 2 ∈ [Instr.ldi 7 9, .add 7 2, .mul 7 2, .div 7 2, .inc 7, .dec 7, .and 7 2] ∧
    ∃ t, exec (.div 7 2) sample = .next t ∧ FaultTaken sample t :=
  ⟨by decide, ⟨_, rfl, by decide⟩, by decide, ⟨_, rfl, by decide⟩⟩

theorem witness_NoResultFrame :
    Instr.jeq 7 ∈ [Instr.cmp 7 0, .prn 7, .jmp 7, .jeq 7, .jne 7, .hlt] ∧ (∃ t, exec (.jeq 7) sample = .next t ∧ t.pc = 0xF4) ∧
    Instr.hlt ∈ [Instr.cmp 7 0, .prn 7, .jmp 7, .jeq 7, .jne 7, .hlt] ∧ ∃ t, exec .hlt sample = .next t ∧ t.status = .halted :=
  ⟨by decide, ⟨_, rfl, by decide⟩, by decide, ⟨_, rfl, rfl⟩⟩

theorem witness_StackStoreFrame :
    Instr.call 3 ∈ [Instr.push 3, .call 3] ∧ ∃ t, exec (.call 3) sample = .next t ∧ sample.pushAddress = 0xF3 ∧ t.pc = 0x0C :=
  ⟨by decide, _, rfl, by decide, by decide⟩

theorem witness_StackLoadFrame :
    Instr.ret ∈ [Instr.pop 6, .ret] ∧ (∃ t, exec .ret sample = .next t ∧ t.x[7] = 0xF5) ∧
    Instr.pop 6 ∈ [Instr.pop 6, .ret] ∧ ∃ t, exec (.pop 6) sample = .next t ∧ t.x[6] = 0 :=
  ⟨by decide, ⟨_, rfl, by decide⟩, by decide, ⟨_, rfl, by decide⟩⟩

/-- A run that halts at once and a run that emits and then faults (unloaded memory after the PRN). -/
theorem witness_RunResultIsIndependentOfFuel :
    run 1 (launched [0x01#8]) = some (.halted []) ∧
    run 2 (launched [0x47#8, 7#8]) = some (.faulted .notImplemented (some ⟨2, .opcode 0x00#8⟩) [0xF4#8]) := by decide

theorem witness_RunKeepsWhatWasEmitted :
    run 2 { launched [0x47#8, 7#8, 0x01#8] with out := [1#8] } = some (.halted [1#8, 0xF4#8]) := by decide

end Sys2Proof.Tests
end

/-! PROOFS. 10_state.md: the reset values (R23), and the output trace (R19). -/

namespace Sys2Proof.Machine

/-! ## Reset -/

/-- Every cell of memory reads 0 at reset (10_state.md R22, R23). -/
theorem State.memRead_reset {a : Nat} (h : a ≤ 255) : State.reset.memRead a = .ok 0 :=
  State.reset.memRead_ok (by omega)

/-- The registers below the stack pointer are 0 at reset (R23). -/
theorem State.x_reset {i : Nat} (h : i ≤ 6) : State.reset.x[i]? = some 0 := by
  interval_cases i <;> rfl

/-- Settles O1: memory and the registers below 7 by their own lemmas, every other piece of state by its value in
`State.reset`. -/
theorem resetLeavesTheSpecValues : Obligations.ResetLeavesTheSpecValues :=
  ⟨fun _ => State.memRead_reset, fun _ => State.x_reset, rfl, rfl, rfl, rfl, rfl, rfl, rfl⟩

/-! ## The registers that only the host reads

`cause`, `info` and `out` are read by the host alone (10_state.md R18, R19). An effect is therefore natural in them: run
with other contents there, it does the same to the rest of the state. Each operation gets one such equation, and the
equation of an instruction is put together from those of its operations. -/

/-- The state with other contents in the registers that only the host reads. -/
def State.withHostSide (c : Cause) (f : Option FaultInfo) (o : List Byte) (s : State) : State :=
  { s with cause := c, info := f, out := o }

section HostSide

variable (c : Cause) (f : Option FaultInfo) (o : List Byte) (s : State)

@[simp] theorem State.withHostSide_mem : (s.withHostSide c f o).mem = s.mem := rfl
@[simp] theorem State.withHostSide_x : (s.withHostSide c f o).x = s.x := rfl
@[simp] theorem State.withHostSide_pc : (s.withHostSide c f o).pc = s.pc := rfl
@[simp] theorem State.withHostSide_fl : (s.withHostSide c f o).fl = s.fl := rfl
@[simp] theorem State.withHostSide_sp : (s.withHostSide c f o).sp = s.sp := rfl

@[simp] theorem State.setPc_withHostSide (p : Nat) :
    (s.withHostSide c f o).setPc p = (s.setPc p).withHostSide c f o := rfl
@[simp] theorem State.advance_withHostSide (n : Nat) :
    (s.withHostSide c f o).advance n = (s.advance n).withHostSide c f o := rfl
@[simp] theorem State.setFlag_withHostSide (v : Flag) :
    (s.withHostSide c f o).setFlag v = (s.setFlag v).withHostSide c f o := rfl
@[simp] theorem State.halt_withHostSide : (s.withHostSide c f o).halt = s.halt.withHostSide c f o := rfl
@[simp] theorem State.decrementSp_withHostSide :
    (s.withHostSide c f o).decrementSp = s.decrementSp.withHostSide c f o := rfl
@[simp] theorem State.incrementSp_withHostSide :
    (s.withHostSide c f o).incrementSp = s.incrementSp.withHostSide c f o := rfl

@[simp] theorem State.readReg_withHostSide (i : Nat) : (s.withHostSide c f o).readReg i = s.readReg i := rfl

@[simp] theorem State.memRead_withHostSide (a : Nat) : (s.withHostSide c f o).memRead a = s.memRead a := rfl

@[simp] theorem State.writeReg_withHostSide (i : Nat) (v : Byte) :
    (s.withHostSide c f o).writeReg i v = State.withHostSide c f o <$> s.writeReg i v := by
  unfold State.writeReg; split <;> rfl

@[simp] theorem State.memWrite_withHostSide (a : Nat) (v : Byte) :
    (s.withHostSide c f o).memWrite a v = State.withHostSide c f o <$> s.memWrite a v := by
  unfold State.memWrite; split <;> rfl

@[simp] theorem State.pushVal_withHostSide (v : Byte) :
    (s.withHostSide c f o).pushVal v = State.withHostSide c f o <$> s.pushVal v := by
  simp [State.pushVal]

@[simp] theorem thenAdvance_withHostSide (n : Nat) (r : Except Exception State) :
    thenAdvance n (State.withHostSide c f o <$> r) = State.withHostSide c f o <$> thenAdvance n r := by
  cases r <;> rfl

@[simp] theorem oneRegister_withHostSide (g : Byte → Byte) (a : Nat) :
    oneRegister g a (s.withHostSide c f o) = State.withHostSide c f o <$> oneRegister g a s := by
  simp [oneRegister]

@[simp] theorem twoRegister_withHostSide (g : Byte → Byte → Byte) (a b : Nat) :
    twoRegister g a b (s.withHostSide c f o) = State.withHostSide c f o <$> twoRegister g a b s := by
  simp [twoRegister]

@[simp] theorem divEffect_withHostSide (a b : Nat) :
    divEffect a b (s.withHostSide c f o) = State.withHostSide c f o <$> divEffect a b s := by
  simp [divEffect, apply_ite (State.withHostSide c f o <$> ·)]

@[simp] theorem cmpEffect_withHostSide (a b : Nat) :
    cmpEffect a b (s.withHostSide c f o) = State.withHostSide c f o <$> cmpEffect a b s := by
  simp [cmpEffect]

@[simp] theorem pushEffect_withHostSide (a : Nat) :
    pushEffect a (s.withHostSide c f o) = State.withHostSide c f o <$> pushEffect a s := by
  simp [pushEffect]

@[simp] theorem popEffect_withHostSide (a : Nat) :
    popEffect a (s.withHostSide c f o) = State.withHostSide c f o <$> popEffect a s := by
  simp [popEffect]

@[simp] theorem jumpTo_withHostSide (a : Nat) :
    jumpTo a (s.withHostSide c f o) = State.withHostSide c f o <$> jumpTo a s := by
  simp [jumpTo]

@[simp] theorem branch_withHostSide (taken : Bool) (a : Nat) :
    (if taken then State.withHostSide c f o <$> jumpTo a s
      else .ok ((s.setPc (s.pc + 2)).withHostSide c f o)) =
      State.withHostSide c f o <$> if taken then jumpTo a s else .ok (s.setPc (s.pc + 2)) := by
  cases taken <;> rfl

@[simp] theorem callEffect_withHostSide (a : Nat) :
    callEffect a (s.withHostSide c f o) = State.withHostSide c f o <$> callEffect a s := by
  simp [callEffect]

@[simp] theorem retEffect_withHostSide :
    retEffect (s.withHostSide c f o) = State.withHostSide c f o <$> retEffect s := by
  simp [retEffect_eq]

/-- What an instruction emits: PRN of a register in range its value, every other instruction nothing (R19). -/
def emitted : Instr → State → List Byte
  | .prn a, s => s.x[a]?.toList
  | _, _ => []

/-- PRN does not read the trace it extends (42_data_stack_io.md R123). -/
theorem prnEffect_withHostSide (a : Nat) :
    prnEffect a (s.withHostSide c f o) =
      State.withHostSide c f (o ++ emitted (.prn a) s) <$> prnEffect a s := by
  rcases Nat.lt_or_ge a 8 with ha | ha
  · simp [prnEffect_ok _ ha, emitted, ha, State.emit, State.withHostSide]
  · simp [prnEffect_error _ ha]

/-- Naturality of every instruction in the registers that only the host reads. -/
theorem effectOf_withHostSide (i : Instr) :
    effectOf i (s.withHostSide c f o) =
      State.withHostSide c f (o ++ emitted i s) <$> effectOf i s := by
  cases i with
  | prn a => simp [effectOf, prnEffect_withHostSide]
  | add a b => simp [effectOf, emitted, addEffect]
  | mul a b => simp [effectOf, emitted, mulEffect]
  | div a b => simp [effectOf, emitted]
  | and a b => simp [effectOf, emitted, andEffect]
  | inc a => simp [effectOf, emitted, incEffect]
  | dec a => simp [effectOf, emitted, decEffect]
  | ldi a imm => simp [effectOf, emitted, ldiEffect]
  | cmp a b | push a | pop a | call a | ret | hlt => simp [effectOf, emitted]
  | jmp a => simp [effectOf, emitted, jmpEffect]
  | jeq a => simp [effectOf, emitted, jeqEffect]
  | jne a => simp [effectOf, emitted, jneEffect]
  | nop | iret | pra a | int a | jgt a | jlt a | jle a | jge a | not a => rfl
  | ld a b | st a b | sub a b | mod a b | or a b | xor a b | shl a b | shr a b => rfl

end HostSide

/-! ## The output trace -/

/-- A successful effect keeps `cause` and `info` and appends what the instruction emits: naturality in the state's own
host-side registers. -/
theorem effectOf_hostSide {i : Instr} {s t : State} (h : effectOf i s = .ok t) :
    t = t.withHostSide s.cause s.info (s.out ++ emitted i s) := by
  have natural := effectOf_withHostSide s.cause s.info s.out s i
  rw [show s.withHostSide s.cause s.info s.out = s from rfl, h] at natural
  exact Except.ok.inj natural

/-- An effect that raises has nothing to emit: a PRN raises only where its register is out of range. -/
theorem emitted_of_raised {i : Instr} {s : State} {e : Exception} (h : effectOf i s = .error e) :
    emitted i s = [] := by
  cases i with
  | prn a =>
    rcases Nat.lt_or_ge a 8 with ha | ha
    · simp [effectOf, prnEffect_ok s ha] at h
    · simp [emitted, ha]
  | _ => rfl

/-- Only PRN of a register in range emits, and it emits the register's value. -/
theorem prn_of_emitted_ne_nil {i : Instr} {s : State} (h : emitted i s ≠ []) :
    ∃ (a : Nat) (v : Byte), i = .prn a ∧ s.x[a]? = some v ∧ emitted i s = [v] := by
  cases i with
  | prn a =>
    cases hv : s.x[a]? with
    | none => simp [emitted, hv] at h
    | some v => exact ⟨a, v, rfl, hv, by simp [emitted, hv]⟩
  | _ => exact absurd rfl h

/-- Every instruction, faulting or not, appends what it emits. -/
theorem exec_out {i : Instr} {s t : State} (h : exec i s = .next t) : t.out = s.out ++ emitted i s := by
  rcases exec_cases h with hok | ⟨e, he, rfl⟩
  · exact congrArg State.out (effectOf_hostSide hok)
  · simp [emitted_of_raised he]

/-- With another trace before it, every instruction does the same and extends that trace instead. -/
theorem exec_with_out {i : Instr} {s t : State} (h : exec i s = .next t) (o : List Byte) :
    exec i { s with out := o } = .next { t with out := o ++ emitted i s } := by
  have natural : effectOf i { s with out := o } =
      State.withHostSide s.cause s.info (o ++ emitted i s) <$> effectOf i s :=
    effectOf_withHostSide s.cause s.info o s i
  rw [exec_eq_complete, natural]
  rcases exec_cases h with hok | ⟨e, he, rfl⟩
  · rw [hok, effectOf_hostSide hok]; rfl
  · rw [he, emitted_of_raised he, List.append_nil]; rfl

/-- Settles O22: an instruction appends what `emitted` says, whatever the trace before it, and only PRN emits. -/
theorem outputTraceIsAppendOnlyAndUnread : Obligations.OutputTraceIsAppendOnlyAndUnread := by
  refine ⟨rfl, fun i s t h hne => ?_, fun i s t o h => ⟨emitted i s, exec_out h, exec_with_out h o⟩⟩
  have hemit : emitted i s ≠ [] := fun hnil => hne (by simp [exec_out h, hnil])
  obtain ⟨a, v, hi, hv, hout⟩ := prn_of_emitted_ne_nil hemit
  exact ⟨a, v, hi, hv, hout ▸ exec_out h⟩

end Sys2Proof.Machine

/-! PROOFS. 60_exceptions.md: the faults UnknownOpcode (R182) and DivisionByZero (R184). -/

namespace Sys2Proof.Machine

/-! ## DivisionByZero -/

/-- An effect that succeeds leaves the cause register as it was: only a fault writes it (10_state.md R18). -/
theorem effectOf_cause {i : Instr} {s t : State} (h : effectOf i s = .ok t) : t.cause = s.cause := by
  rw [effectOf_hostSide h]
  rfl

/-- DIV of a register in range by one that holds 0 takes the fault DivisionByZero (41_alu.md R92, R104). -/
theorem exec_div_zero {s : State} {a b : Nat} (ha : a < 8) (h0 : s.x[b]? = some 0) :
    exec (.div a b) s = .next (s.takeFault (.divisionByZero b)) := by
  obtain ⟨hb, hzero⟩ := Vector.getElem?_eq_some_iff.mp h0
  rw [exec_eq_complete, effectOf, divEffect_zero s ha hb hzero, thenAdvance_error, complete_error]

/-- An instruction that brings the cause DivisionByZero about is a DIV by a register that holds 0, and it answers the
fault taken. -/
theorem exec_divisionByZero_cases {i : Instr} {s t : State} (hc : s.cause = .none) (h : exec i s = .next t)
    (ht : t.cause = .divisionByZero) :
    ∃ a b, i = .div a b ∧ a < 8 ∧ s.x[b]? = some 0 ∧ t = s.takeFault (.divisionByZero b) := by
  rcases exec_cases h with hok | ⟨e, he, rfl⟩
  · have hnone : t.cause = .none := (effectOf_cause hok).trans hc
    exact absurd (hnone.symm.trans ht) (by decide)
  · cases effectOf_raised he with
    | notImplemented hi => cases ht
    | outOfRange n hn hi => cases ht
    | divisionByZero a b ha hb h0 hi =>
      exact ⟨a, b, hi, ha, Vector.getElem?_eq_some_iff.mpr ⟨hb, h0⟩, rfl⟩

/-- Settles O26: one direction is the inversion of what an instruction can raise, the other the fault of DIV itself. -/
theorem divisionByZeroIsRaisedByDivAlone : Obligations.DivisionByZeroIsRaisedByDivAlone := by
  refine fun i s t hc h => ⟨⟨fun ht => ?_, ?_⟩, ?_⟩
  · obtain ⟨a, b, hi, ha, h0, -⟩ := exec_divisionByZero_cases hc h ht
    exact ⟨a, b, hi, ha, h0⟩
  · rintro ⟨a, b, rfl, ha, h0⟩
    cases (exec_div_zero ha h0).symm.trans h
    rfl
  · rintro a b rfl ht
    obtain ⟨a', b', hi, -, -, rfl⟩ := exec_divisionByZero_cases hc h ht
    cases hi
    exact ⟨rfl, rfl, rfl⟩

/-! ## UnknownOpcode -/

/-- A byte that is in no row of the table ends the fetch at any address of memory: the operand bytes, which need not
exist, are not read (40_execution_cycle.md R70). -/
theorem State.fetch_unrecognised {s : State} (hpc : s.pc ≤ 255)
    (hop : decodeOpcode (Memory.read s.mem s.pc) = none) :
    s.fetch = .error (.unknownOpcode (Memory.read s.mem s.pc)) := by
  rcases s.fetch_cases with ⟨hout, -⟩ | ⟨-, -, hf⟩ | ⟨-, ⟨m, hm⟩, -⟩ | ⟨-, m, hm, -⟩
  · omega
  · exact hf
  · simp [hop] at hm
  · simp [hop] at hm

/-- Settles O14: the step takes the fault that the fetch raised. -/
theorem unrecognisedByteFaults : Obligations.UnrecognisedByteFaults := fun _ hr hpc hop =>
  ⟨_, step_of_fetch_error hr (State.fetch_unrecognised hpc hop), rfl, rfl, rfl, rfl, rfl⟩

end Sys2Proof.Machine

/-! PROOFS. 30_encoding.md: decoding and encoding (R50 to R57). -/

namespace Sys2Proof

/-! ## The operand bytes of an instruction -/

/-- The operand count in the opcode byte is the number of operand bytes (30_encoding.md R50, R53). -/
theorem operandBytes_length (i : Instr) : i.operandBytes.length = opCnt i.mnemonic.opcode := by
  cases i <;> simp only [Instr.operandBytes, Instr.mnemonic, List.length_cons, List.length_nil] <;> decide

/-- MAX_OPERANDS is 2 (00_scope.md R3). -/
theorem opCnt_opcode_le (m : Mnemonic) : opCnt m.opcode ≤ 2 := by
  cases m <;> decide

/-- A number that fits its operand byte is the value of that byte (R54). -/
theorem toNat_ofNat_of_fits {n : Nat} (h : operandFits n = true) : (BitVec.ofNat 8 n).toNat = n := by
  simpa [operandFits] using h

theorem operandFits_toNat (v : Byte) : operandFits v.toNat = true := by
  simpa [operandFits] using v.isLt

/-- Assembling a well-formed instruction from its own identity and operand bytes gives it back. -/
theorem assemble_operandBytes {i : Instr} (h : i.wellFormed = true) :
    assemble i.mnemonic (i.operandBytes.getD 0 0) (i.operandBytes.getD 1 0) = i := by
  cases i with
  | nop | hlt | ret | iret => rfl
  | push a | pop a | prn a | pra a | call a | int a | jmp a | jeq a | jne a | jgt a | jlt a | jle a | jge a | inc a
  | dec a | not a | ldi a imm =>
    simp [assemble, Instr.mnemonic, Instr.operandBytes, toNat_ofNat_of_fits (n := a) h]
  | ld a b | st a b | add a b | sub a b | mul a b | div a b | mod a b | cmp a b | and a b | or a b | xor a b | shl a b
  | shr a b =>
    obtain ⟨ha, hb⟩ := Bool.and_eq_true_iff.mp h
    simp [assemble, Instr.mnemonic, Instr.operandBytes, toNat_ofNat_of_fits ha, toNat_ofNat_of_fits hb]

/-- Whatever the bytes, they assemble to a well-formed instruction: nothing is masked and nothing overflows (R54, R59). -/
theorem assemble_wellFormed (m : Mnemonic) (a b : Byte) : (assemble m a b).wellFormed = true := by
  cases m <;> simp [assemble, Instr.wellFormed, operandFits_toNat]

/-- The operand bytes of an assembled instruction: as many of the two as its identity has operands (R50). -/
theorem operandBytes_assemble (m : Mnemonic) (a b : Byte) :
    (assemble m a b).operandBytes = [a, b].take (opCnt m.opcode) := by
  have hlen := operandBytes_length (assemble m a b)
  rw [assemble_mnemonic] at hlen
  rw [← hlen]
  cases m <;> simp [assemble, Instr.operandBytes]

/-- A byte that is no operand of the identity is ignored (R50). -/
theorem assemble_take (m : Mnemonic) (a b : Byte) :
    assemble m (([a, b].take (opCnt m.opcode)).getD 0 0) (([a, b].take (opCnt m.opcode)).getD 1 0) =
      assemble m a b := by
  have h := assemble_operandBytes (assemble_wellFormed m a b)
  rwa [assemble_mnemonic, operandBytes_assemble] at h

/-! ## The decoder -/

/-- Decoding an opcode byte of the table with its operand bytes behind it. -/
theorem decode_opcode_append (m : Mnemonic) (ops rest : List Byte) (h : ops.length = opCnt m.opcode) :
    decode (m.opcode :: (ops ++ rest)) = .ok (assemble m (ops.getD 0 0) (ops.getD 1 0), rest) := by
  have hle := h ▸ opCnt_opcode_le m
  match ops, h with
  | [], h | [a], h | [a, b], h => simp [decode, ← h]
  | a :: b :: c :: ops, h => simp at hle

/-- Everything the decoder accepts: an opcode byte of the table, its operand bytes, and the bytes it leaves. -/
theorem decode_cases {bytes rest : List Byte} {i : Instr} (h : decode bytes = .ok (i, rest)) :
    ∃ (m : Mnemonic) (ops : List Byte), ops.length = opCnt m.opcode ∧ bytes = m.opcode :: (ops ++ rest) ∧
      i = assemble m (ops.getD 0 0) (ops.getD 1 0) := by
  cases bytes with
  | nil => simp [decode] at h
  | cons op tail =>
    cases hm : decodeOpcode op with
    | none => simp [decode, hm] at h
    | some m =>
      obtain rfl := opcode_of_decodeOpcode hm
      simp only [decode, decodeOpcode_opcode] at h
      split at h
      case h_1 hcnt => cases h; exact ⟨m, [], hcnt.symm, rfl, rfl⟩
      case h_2 a _ hcnt => cases h; exact ⟨m, [a], hcnt.symm, rfl, rfl⟩
      case h_3 a b _ hcnt => cases h; exact ⟨m, [a, b], hcnt.symm, rfl, rfl⟩
      case h_4 => cases h

/-- A list of at most two bytes is the one of its first two that has its length. -/
theorem take_getD_of_length_le_two {ops : List Byte} (h : ops.length ≤ 2) :
    [ops.getD 0 0, ops.getD 1 0].take ops.length = ops := by
  match ops, h with
  | [], _ | [_], _ | [_, _], _ => rfl

/-- Settles O8: the encoding is an opcode byte of the table with its operand bytes, which assemble to the instruction. -/
theorem decodeOfEncodeIsTheInstruction : Obligations.DecodeOfEncodeIsTheInstruction := by
  intro i rest hwf
  calc decode (encode i ++ rest)
      = .ok (assemble i.mnemonic (i.operandBytes.getD 0 0) (i.operandBytes.getD 1 0), rest) :=
        decode_opcode_append i.mnemonic i.operandBytes rest (operandBytes_length i)
    _ = .ok (i, rest) := by rw [assemble_operandBytes hwf]

/-- Settles O9: what the decoder accepts is taken apart, and the assembled instruction has those bytes. -/
theorem encodeOfDecodeIsTheBytes : Obligations.EncodeOfDecodeIsTheBytes := by
  intro bytes i rest h
  obtain ⟨m, ops, hlen, rfl, rfl⟩ := decode_cases h
  refine ⟨assemble_wellFormed m _ _, ?_⟩
  have hops : (assemble m (ops.getD 0 0) (ops.getD 1 0)).operandBytes = ops := by
    rw [operandBytes_assemble, ← hlen]
    exact take_getD_of_length_le_two (hlen ▸ opCnt_opcode_le m)
  rw [encode, assemble_mnemonic, hops, List.cons_append]

/-! ## The opcode bytes -/

/-- Settles O10: the three classes are counted over the 256 bytes, each looked up in the table. -/
theorem opcodeBytesFallInThreeClasses : Obligations.OpcodeBytesFallInThreeClasses :=
  ⟨rfl, rfl, rfl⟩

/-- `cnt` is the byte divided by 64 (R52). -/
theorem opCnt_eq_div (op : Byte) : opCnt op = op.toNat / 64 := by
  have hlt : op.toNat < 256 := op.isLt
  have hmask : op.toNat / 64 % 4 = op.toNat / 64 := by omega
  simpa [opCnt, Nat.shiftRight_eq_div_pow, Nat.and_two_pow_sub_one_eq_mod _ 2] using hmask

/-- Bit `k` of a byte, as `alu` and `setpc` are taken from it (R52). -/
theorem shiftRight_and_one_beq (op : Byte) (k : Nat) : ((op >>> k) &&& 1#8 == 1#8) = op.getLsbD k := by
  rw [BitVec.and_one_eq_setWidth_ofBool_getLsbD, BitVec.getLsbD_ushiftRight, Nat.add_zero]
  cases op.getLsbD k <;> rfl

/-- Settles O11: the fields of any byte by their lemmas, those of the seventeen handled bytes by computing them. -/
theorem derivedFieldsAreTakenFromTheByte : Obligations.DerivedFieldsAreTakenFromTheByte :=
  ⟨fun op => ⟨opCnt_eq_div op, shiftRight_and_one_beq op 5, shiftRight_and_one_beq op 4⟩,
    by decide, by decide, by decide, by decide, by decide, by decide, by decide⟩

/-- Settles O12: each written word is decoded. -/
theorem writtenWordsDecode : Obligations.WrittenWordsDecode :=
  ⟨rfl, rfl, rfl, rfl, rfl, rfl, rfl, rfl⟩

end Sys2Proof

/-! PROOFS. 10_state.md sections 3 and 5, 60_exceptions.md section 2: what an effect does to each piece of the state, and
the invariant of the machine. -/

namespace Sys2Proof.Machine

/-! ## What a successful effect does to each piece of the state -/

/-- Memory stays, but for the one cell that PUSH and CALL write (20_memory.md section 4). -/
theorem Shape.mem_cases {i : Instr} {s t : State} (h : Shape i s t) :
    t.mem = s.mem ∨
      (∃ r, i = .push r ∨ i = .call r) ∧ ∃ v : Byte, t.mem = Memory.write s.mem s.pushAddress v := by
  cases h with
  | push a ha hi ht => subst ht; exact .inr ⟨⟨a, .inl hi⟩, _, rfl⟩
  | call a ha hi ht => subst ht; exact .inr ⟨⟨a, .inr hi⟩, _, rfl⟩
  | register _ _ _ _ _ _ ht | compare _ _ _ _ _ ht | print _ _ _ ht | pop _ _ _ ht | ret _ ht | jump _ _ _ _ ht
  | halt _ ht => subst ht; exact .inl rfl

/-- A write to memory keeps its canonical form (log 9). -/
theorem Shape.mem_wf {i : Instr} {s t : State} (h : Shape i s t) (hs : Memory.wf s.mem) : Memory.wf t.mem := by
  rcases h.mem_cases with hmem | ⟨-, v, hmem⟩ <;> rw [hmem]
  · exact hs
  · exact Memory.wf_write hs s.pushAddress_lt v

/-- An instruction with one register result is one byte longer than its operand count (30_encoding.md R53). -/
theorem registerResult_length {i : Instr} {a len : Nat} (h : registerResult i = some (a, len)) :
    len = opCnt i.mnemonic.opcode + 1 := by
  rw [← operandBytes_length]
  cases i <;> cases h <;> rfl

/-- `pc` goes to an address of memory or past an instruction of at most three bytes (10_state.md R14,
43_control_transfer.md R146). -/
theorem Shape.pc_cases {i : Instr} {s t : State} (h : Shape i s t) :
    t.pc < 256 ∨ t.pc ≤ s.pc + 2 ∨ (t.pc = s.pc + 3 ∧ opCnt i.mnemonic.opcode = 2) := by
  cases h with
  | register a len v ha hlen hi ht =>
    have := registerResult_length hi
    have hpc : t.pc = s.pc + len := by rw [ht]
    omega
  | compare a b ha hb hi ht => subst hi ht; exact .inr (.inr ⟨rfl, by simp only [Instr.mnemonic]; decide⟩)
  | print _ _ _ ht | push _ _ _ ht | pop _ _ _ ht => subst ht; exact .inr (.inl le_rfl)
  | call a ha hi ht => subst ht; exact .inl (BitVec.isLt _)
  | ret hi ht => subst ht; exact .inl (BitVec.isLt _)
  | jump a hi p hp ht => subst ht; exact hp.imp_right fun hp => .inl hp.le
  | halt hi ht => subst ht; exact .inr (.inl (Nat.le_succ _))

/-- An instruction whose opcode byte has the bit `setpc` at 0 moves on by its length (40_execution_cycle.md R72, R73). -/
theorem Shape.pc_of_not_setpc {i : Instr} {s t : State} (h : Shape i s t)
    (hset : opSetpc i.mnemonic.opcode = false) : t.pc = s.pc + (opCnt i.mnemonic.opcode + 1) := by
  cases h with
  | register a len v ha hlen hi ht => rw [ht, registerResult_length hi]
  | compare _ _ _ _ hi ht | print _ _ hi ht | push _ _ hi ht | pop _ _ hi ht | halt hi ht =>
    rw [← operandBytes_length]
    subst hi ht
    rfl
  | call _ _ hi _ | ret hi _ => subst hi; exact absurd hset (by simp only [Instr.mnemonic]; decide)
  | jump a hi p hp ht =>
    rcases hi with rfl | rfl | rfl <;> exact absurd hset (by simp only [Instr.mnemonic]; decide)

/-- The flag stays, but for CMP, which writes TRUE or FALSE (10_state.md R16). -/
theorem Shape.fl_cases {i : Instr} {s t : State} (h : Shape i s t) :
    t.fl = s.fl ∨ (∃ a b, i = .cmp a b) ∧ t.fl ≠ .unset := by
  cases h with
  | compare a b ha hb hi ht =>
    subst ht
    refine .inr ⟨⟨a, b, hi⟩, ?_⟩
    by_cases heq : s.x[a] = s.x[b] <;> simp [compareFlag, heq]
  | register _ _ _ _ _ _ ht | print _ _ _ ht | push _ _ _ ht | pop _ _ _ ht | call _ _ _ ht | ret _ ht
  | jump _ _ _ _ ht | halt _ ht => subst ht; exact .inl rfl

/-- The control registers stay, but for HLT, which sets HALTED (10_state.md R17, R18). -/
theorem Shape.control_cases {i : Instr} {s t : State} (h : Shape i s t) :
    SameControl s t ∨ (i = .hlt ∧ t.status = .halted ∧ t.cause = s.cause ∧ t.info = s.info) := by
  cases h with
  | halt hi ht => subst ht; exact .inr ⟨hi, rfl, rfl, rfl⟩
  | register _ _ _ _ _ _ ht | compare _ _ _ _ _ ht | print _ _ _ ht | push _ _ _ ht | pop _ _ _ ht | call _ _ _ ht
  | ret _ ht | jump _ _ _ _ ht => subst ht; exact .inl ⟨rfl, rfl, rfl⟩

/-! ## The fault record -/

/-- Taking a fault writes a record in order (60_exceptions.md R186). -/
@[simp] theorem faultRecordOk_takeFault (s : State) (e : Exception) : faultRecordOk (s.takeFault e) = true := by
  cases e <;> simp [faultRecordOk, Exception.cause, Exception.detail, detailFits]

/-- Taking a fault changes nothing but the control registers (R186). -/
theorem faultTaken_takeFault (s : State) (e : Exception) : FaultTaken s (s.takeFault e) :=
  ⟨rfl, faultRecordOk_takeFault s e, rfl, rfl, rfl, rfl, rfl⟩

/-- A core that has not faulted has its fault record in order if and only if it is empty (R188). -/
theorem faultRecordOk_iff_of_safe {s : State} (h : Safe s) :
    faultRecordOk s = true ↔ s.cause = .none ∧ s.info = none := by
  obtain ⟨mem, x, pc, fl, status, cause, info, out⟩ := s
  cases status with
  | faulted => exact absurd rfl h
  | running | halted => cases cause <;> cases info <;> simp [faultRecordOk]

/-! ## Everything a step can do -/

/-- A stopped core stays; a running one completes the instruction it fetched, or takes a fault (40_execution_cycle.md
R74, R186). -/
theorem step_cases {s t : State} (h : step s = .next t) :
    (s.status ≠ .running ∧ t = s) ∨
    (s.status = .running ∧ ∃ i, s.fetch = .ok i ∧ effectOf i s = .ok t) ∨
    (s.status = .running ∧ ∃ e, t = s.takeFault e) := by
  by_cases hr : s.status = .running
  · refine .inr ?_
    cases hf : s.fetch with
    | ok i =>
      rw [step_of_fetch hr hf] at h
      rcases exec_cases h with hok | ⟨e, -, ht⟩
      · exact .inl ⟨hr, i, rfl, hok⟩
      · exact .inr ⟨hr, e, ht⟩
    | error e =>
      rw [step_of_fetch_error hr hf] at h
      exact .inr ⟨hr, e, (Host.Outcome.next.inj h).symm⟩
  · refine .inl ⟨hr, ?_⟩
    cases hs : s.status with
    | running => exact absurd hs hr
    | halted | faulted => simpa [step, hs, eq_comm] using h

/-- Only an instruction that lies in memory with its two following bytes is fetched (R71), and its opcode byte is the
one at `pc`. -/
theorem State.fetch_ok_cases {s : State} {i : Instr} (h : s.fetch = .ok i) :
    s.pc ≤ 253 ∧ Memory.read s.mem s.pc = i.mnemonic.opcode := by
  rcases s.fetch_cases with ⟨-, hf⟩ | ⟨-, -, hf⟩ | ⟨-, -, hf⟩ | ⟨hpc, m, hm, hf⟩
  · simp [hf] at h
  · simp [hf] at h
  · simp [hf] at h
  · obtain rfl := Except.ok.inj (hf.symm.trans h)
    exact ⟨hpc, by rw [assemble_mnemonic]; exact opcode_of_decodeOpcode hm⟩

/-! ## The invariant -/

/-- Taking a fault keeps the invariant: memory and `pc` stay, and the record is written. -/
theorem inv_takeFault {s : State} (h : Inv s) (e : Exception) : Inv (s.takeFault e) := by
  obtain ⟨hmem, hpc, -⟩ := h
  exact ⟨hmem, hpc, faultRecordOk_takeFault s e⟩

/-- A core that is running and completes an instruction has not faulted. -/
theorem Shape.safe {i : Instr} {s t : State} (h : Shape i s t) (hs : Safe s) : Safe t := by
  rcases h.control_cases with ⟨hstatus, -, -⟩ | ⟨-, hstatus, -, -⟩
  · rwa [Safe, hstatus]
  · simp [hstatus]

/-- An instruction that completes at an address a fetch allows keeps the invariant. -/
theorem Shape.inv {i : Instr} {s t : State} (h : Shape i s t) (hs : Safe s) (hpc : s.pc ≤ 253) (hinv : Inv s) :
    Inv t := by
  obtain ⟨hmem, -, hrecord⟩ := hinv
  refine ⟨h.mem_wf hmem, ?_, ?_⟩
  · rcases h.pc_cases with hp | hp | ⟨hp, -⟩ <;> omega
  · rw [faultRecordOk_iff_of_safe hs] at hrecord
    rw [faultRecordOk_iff_of_safe (h.safe hs)]
    rcases h.control_cases with ⟨-, hc, hi⟩ | ⟨-, -, hc, hi⟩ <;> rwa [hc, hi]

/-- Settles O3: a stopped core stays as it is, a completed instruction and a fault keep each part of the invariant. -/
theorem everyStepKeepsTheInvariant : Obligations.EveryStepKeepsTheInvariant := by
  intro s t hinv h
  rcases step_cases h with ⟨-, rfl⟩ | ⟨hr, i, hf, hok⟩ | ⟨-, e, rfl⟩
  · exact hinv
  · exact (effectOf_shape hok).inv (by simp [hr]) (State.fetch_ok_cases hf).1 hinv
  · exact inv_takeFault hinv e

/-- Settles O2: the memory at reset is canonical and no fault is on record; a reset event answers the reset state. -/
theorem resetMeetsTheInvariant : Obligations.ResetMeetsTheInvariant :=
  ⟨⟨Memory.wf_reset, by decide, rfl⟩, fun _ => rfl⟩

end Sys2Proof.Machine

/-! PROOFS. 40_execution_cycle.md and 60_exceptions.md section 2: the step, its faults, and the literal four-action
cycle. -/

namespace Sys2Proof.Machine

/-! ## The step -/

/-- Settles O13: the bytes that decode are the opcode byte and the operand bytes that the fetch assembles. -/
theorem stepRunsTheDecodedInstruction : Obligations.StepRunsTheDecodedInstruction := by
  intro s i rest hr hpc h
  obtain ⟨m, ops, hlen, hbytes, rfl⟩ := decode_cases h
  obtain ⟨hop, htail⟩ := List.cons.inj hbytes
  have hops : [Memory.read s.mem (s.pc + 1), Memory.read s.mem (s.pc + 2)].take (opCnt m.opcode) = ops := by
    rw [htail, ← hlen, List.take_left]
  have hm : decodeOpcode (Memory.read s.mem s.pc) = some m := by rw [hop, decodeOpcode_opcode]
  have hf := State.fetch_ok hpc hm
  rw [← assemble_take, hops] at hf
  exact step_of_fetch hr hf

/-- A fetch above 255 raises OutOfRange of `pc` (60_exceptions.md R181, the spec's decision D2). -/
theorem State.fetch_beyond {s : State} (hpc : 256 ≤ s.pc) : s.fetch = .error (.outOfRange .mem s.pc) := by
  rcases s.fetch_cases with ⟨-, hf⟩ | ⟨hlt, -⟩ | ⟨hlt, -⟩ | ⟨hlt, -⟩
  · exact hf
  all_goals omega

/-- A recognised opcode byte at 254 or 255 raises OutOfRange of 256, the first operand byte that does not exist
(R181, the spec's decision D8). -/
theorem State.fetch_operand_beyond {s : State} (hpc : s.pc = 254 ∨ s.pc = 255)
    (hop : (decodeOpcode (Memory.read s.mem s.pc)).isSome) : s.fetch = .error (.outOfRange .mem 256) := by
  rcases s.fetch_cases with ⟨hge, -⟩ | ⟨-, hnone, -⟩ | ⟨-, -, hf⟩ | ⟨hlt, -⟩
  · omega
  · simp [hnone] at hop
  · exact hf
  · omega

/-- Settles O15: the fetch raises, and the step takes the fault. -/
theorem fetchOutsideMemoryFaults : Obligations.FetchOutsideMemoryFaults := fun _ hr =>
  ⟨fun hpc => step_of_fetch_error hr (State.fetch_beyond hpc),
    fun hpc hop => step_of_fetch_error hr (State.fetch_operand_beyond hpc hop)⟩

/-- Every instruction answers a next state. -/
theorem exec_next (i : Instr) (s : State) : ∃ t, exec i s = .next t := by
  rw [exec_eq_complete]
  cases effectOf i s with
  | ok t => exact ⟨t, rfl⟩
  | error e => exact ⟨s.takeFault e, rfl⟩

/-- Settles O19: in both stopped states the step answers its own state. -/
theorem stoppedCoreStaysAsItIs : Obligations.StoppedCoreStaysAsItIs := by
  intro s hs
  cases hstatus : s.status with
  | running => exact absurd hstatus hs
  | halted | faulted => simp [step, hstatus]

/-- Settles O18: a stopped core answers itself, a running one what its instruction or its fault answers. -/
theorem nothingStopsTheModel : Obligations.NothingStopsTheModel := by
  refine ⟨fun s => ?_, exec_next⟩
  by_cases hr : s.status = .running
  · cases hf : s.fetch with
    | ok i => rw [step_of_fetch hr hf]; exact exec_next i s
    | error e => exact ⟨_, step_of_fetch_error hr hf⟩
  · exact ⟨s, stoppedCoreStaysAsItIs s hr⟩

/-- Settles O20: a step that completes an instruction leaves the core RUNNING or HALTED, so a step to FAULTED takes a
fault. -/
theorem faultingStepChangesOnlyTheFaultRegisters : Obligations.FaultingStepChangesOnlyTheFaultRegisters := by
  intro s t hr h ht
  rcases step_cases h with ⟨hs, -⟩ | ⟨-, i, -, hok⟩ | ⟨-, e, rfl⟩
  · exact absurd hr hs
  · exact absurd ht ((effectOf_shape hok).safe (by simp [hr]))
  · exact faultTaken_takeFault s e

/-- Settles O21: a fetch allows an address of at most 253, and only an instruction of three bytes moves on by three. -/
theorem programCounterLeavesMemoryOnlyFrom253 : Obligations.ProgramCounterLeavesMemoryOnlyFrom253 := by
  intro s t hr hpc h ht
  rcases step_cases h with ⟨hs, -⟩ | ⟨-, i, hf, hok⟩ | ⟨-, e, rfl⟩
  · exact absurd hr hs
  · obtain ⟨hfetch, hop⟩ := State.fetch_ok_cases hf
    rcases (effectOf_shape hok).pc_cases with hp | hp | ⟨hp, hcnt⟩
    · omega
    · omega
    · have h253 : s.pc = 253 := by omega
      refine ⟨h253, by omega, ?_⟩
      rw [← h253, hop, hcnt]
  · rw [State.takeFault_pc] at ht
    omega

/-! ## The four-action cycle -/

/-- `pc <- next` after an effect that left `pc` where it was is an advance by the length of the instruction. -/
theorem bind_setPc_eq_thenAdvance {r : Except Exception State} {s : State} {cnt : Nat}
    (h : ∀ t, r = .ok t → t.pc = s.pc) :
    (do let t ← r; .ok (t.setPc (s.pc + cnt + 1))) = thenAdvance (cnt + 1) r := by
  cases r with
  | error e => rfl
  | ok t => simp [State.advance, h t rfl, bind, Except.bind, Nat.add_assoc]

section Dispatch

variable {u : Bool} {m : Mnemonic} {a b : Byte} {s : State}

/-- An effect that an instruction rule follows by an advance leaves `pc` to the cycle, where `setpc` is 0 (R73). -/
theorem pc_of_effect {cnt : Nat} {r : Except Exception State} (hset : opSetpc m.opcode = false)
    (hcnt : opCnt m.opcode = cnt) (hi : effectOf (assemble m a b) s = thenAdvance (cnt + 1) r) {t : State}
    (hr : r = .ok t) : t.pc = s.pc := by
  rw [hr, thenAdvance_ok] at hi
  have hpc := (effectOf_shape hi).pc_of_not_setpc (by rwa [assemble_mnemonic])
  rw [assemble_mnemonic, hcnt, State.advance_pc] at hpc
  exact Nat.add_right_cancel hpc

/-- The dispatch of an opcode byte with the bit `alu` (R73). -/
theorem dispatch_alu {cnt : Nat} (hm : m ≠ .hlt) (halu : opAlu m.opcode = true) (hset : opSetpc m.opcode = false)
    (hcnt : opCnt m.opcode = cnt)
    (hi : effectOf (assemble m a b) s = thenAdvance (cnt + 1) (aluApply m m.opcode a b s)) :
    dispatch u m m.opcode a b (s.pc + opCnt m.opcode + 1) s = effectOf (assemble m a b) s := by
  simp only [dispatch, hm, halu, hcnt, if_true, if_false]
  exact (bind_setPc_eq_thenAdvance fun t => pc_of_effect hset hcnt hi).trans hi.symm

/-- The dispatch of an opcode byte with the bits `alu` and `setpc` both 0 (R73). -/
theorem dispatch_handler {cnt : Nat} (hm : m ≠ .hlt) (halu : opAlu m.opcode = false)
    (hset : opSetpc m.opcode = false) (hcnt : opCnt m.opcode = cnt)
    (hi : effectOf (assemble m a b) s = thenAdvance (cnt + 1) (handlerApply u m m.opcode a b s)) :
    dispatch u m m.opcode a b (s.pc + opCnt m.opcode + 1) s = effectOf (assemble m a b) s := by
  simp only [dispatch, hm, halu, hset, hcnt, if_false, Bool.false_eq_true]
  exact (bind_setPc_eq_thenAdvance fun t => pc_of_effect hset hcnt hi).trans hi.symm

/-- The dispatch of an opcode byte with the bit `setpc` at 1: the handler has set `pc` itself (R73). -/
theorem dispatch_setpc {next : Nat} (hm : m ≠ .hlt) (halu : opAlu m.opcode = false)
    (hset : opSetpc m.opcode = true) :
    dispatch u m m.opcode a b next s = handlerApply u m m.opcode a b s := by
  simp only [dispatch, hm, halu, hset, if_true, if_false, Bool.false_eq_true]
  exact bind_pure _

/-- The dispatch on the bits of the opcode byte has the effect of the whole instruction rule. -/
theorem dispatch_eq_effectOf :
    dispatch flagUnsetAsFalse m m.opcode a b (s.pc + opCnt m.opcode + 1) s = effectOf (assemble m a b) s := by
  cases m with
  | hlt => rfl
  | add | mul | div | inc | dec | and | cmp =>
    exact dispatch_alu (by decide) (by decide) (by decide) (by decide) rfl
  | sub | mod | not | or | xor | shl | shr =>
    exact dispatch_alu (by decide) (by decide) (by decide) rfl rfl
  | ldi | prn | push | pop => exact dispatch_handler (by decide) (by decide) (by decide) (by decide) rfl
  | nop | ld | st | pra => exact dispatch_handler (by decide) (by decide) (by decide) rfl rfl
  | call | ret | jmp | jeq | jne => exact dispatch_setpc (by decide) (by decide) (by decide)
  | int | iret | jgt | jlt | jle | jge => exact dispatch_setpc (by decide) (by decide) (by decide)

/-- The parameter FLAG_UNSET_AS_FALSE reaches a JNE alone, and there an UNSET flag alone (43_control_transfer.md
R145). -/
theorem dispatch_unset_irrelevant {op : Byte} {next : Nat} (h : m = .jne → s.fl ≠ .unset) :
    dispatch true m op a b next s = dispatch false m op a b next s := by
  cases m with
  | jne =>
    have hjne : jneEffect true a.toNat s = jneEffect false a.toNat s := by
      cases hfl : s.fl with
      | unset => exact absurd hfl (h rfl)
      | isTrue | isFalse => simp [jneEffect, flagIsFalse, hfl]
    simp only [dispatch, handlerApply, hjne]
  | _ => rfl

end Dispatch

/-- The opcode fetched is the byte of its identity. -/
theorem State.fetchOpcode_ok {s : State} {op : Byte} {m : Mnemonic}
    (h : s.fetchOpcode opcodeTable = .ok (op, m)) : op = m.opcode := by
  cases hop : s.memRead s.pc with
  | error e => simp [State.fetchOpcode, hop, bind, Except.bind] at h
  | ok op' =>
    cases hm : decodeOpcodeIn opcodeTable op' with
    | none => simp [State.fetchOpcode, hop, hm, bind, Except.bind] at h
    | some m' =>
      simp only [State.fetchOpcode, hop, hm, bind, Except.bind, Except.ok.injEq, Prod.mk.injEq] at h
      obtain ⟨rfl, rfl⟩ := h
      exact opcode_of_decodeOpcode hm

/-- The cycle dispatches what the fetch assembles, or raises what the fetch raises. -/
theorem cycleActions_cases (s : State) :
    (∃ e, s.fetch = .error e ∧ ∀ u, cycleActions opcodeTable u s = .error e) ∨
    ∃ m a b, s.fetch = .ok (assemble m a b) ∧
      ∀ u, cycleActions opcodeTable u s = dispatch u m m.opcode a b (s.pc + opCnt m.opcode + 1) s := by
  cases hop : s.fetchOpcode opcodeTable with
  | error e => exact .inl ⟨e, by simp [State.fetch, hop, bind, Except.bind],
      fun u => by simp [cycleActions, hop, bind, Except.bind]⟩
  | ok opm =>
    obtain ⟨op, m⟩ := opm
    obtain rfl := State.fetchOpcode_ok hop
    cases hab : s.fetchOperands with
    | error e => exact .inl ⟨e, by simp [State.fetch, hop, hab, bind, Except.bind],
        fun u => by simp [cycleActions, hop, hab, bind, Except.bind]⟩
    | ok ab => exact .inr ⟨m, ab.1, ab.2, by simp [State.fetch, hop, hab, bind, Except.bind],
        fun u => by simp [cycleActions, hop, hab, bind, Except.bind]⟩

/-- Settles O16: what is fetched is the same, and dispatch has the effect of the whole instruction rule. -/
theorem stepIsTheFourActionCycle : Obligations.StepIsTheFourActionCycle := by
  intro s hr
  rcases cycleActions_cases s with ⟨e, hf, hcycle⟩ | ⟨m, a, b, hf, hcycle⟩
  · rw [step_of_fetch_error hr hf, cycle, hcycle]
  · rw [step_of_fetch hr hf, exec_eq_complete, cycle, hcycle, dispatch_eq_effectOf]
    cases effectOf (assemble m a b) s <;> rfl

/-- The two values of the parameter differ only where a JNE is fetched with the flag UNSET. -/
theorem cycle_unset_irrelevant {s : State} (h : ∀ a, s.fetch = .ok (.jne a) → s.fl ≠ .unset) :
    cycle opcodeTable true s = cycle opcodeTable false s := by
  rcases cycleActions_cases s with ⟨e, -, hcycle⟩ | ⟨m, a, b, hf, hcycle⟩
  · simp only [cycle, hcycle]
  · have hjne : m = .jne → s.fl ≠ .unset := by
      rintro rfl
      exact h a.toNat hf
    simp only [cycle, hcycle, dispatch_unset_irrelevant hjne]

/-- Settles O17: a step that reads no UNSET flag, and a JEQ, is no JNE that reads one. -/
theorem unsetPolicyMattersOnlyWhereUnsetIsRead : Obligations.UnsetPolicyMattersOnlyWhereUnsetIsRead := by
  intro s _
  refine ⟨fun hread => ?_, fun a hjeq => ?_⟩
  · exact cycle_unset_irrelevant fun a hf hfl => hread ⟨hfl, a, .inr hf⟩
  · exact cycle_unset_irrelevant fun a' hf => by simp [hjeq] at hf

end Sys2Proof.Machine

/-! PROOFS. 10_state.md section 5, 20_memory.md section 4, 60_exceptions.md section 1: what the instructions read and
write, over all of them. -/

namespace Sys2Proof.Machine

/-- Settles O23: naturality of the effect in the registers that only the host reads, `out` left as it is. -/
theorem faultRegistersAreUnread : Obligations.FaultRegistersAreUnread := by
  intro i s t c f h
  have natural : effectOf i { s with cause := c, info := f } =
      State.withHostSide c f (s.out ++ emitted i s) <$> effectOf i s :=
    effectOf_withHostSide c f s.out s i
  rw [exec_eq_complete, natural]
  rcases exec_cases h with hok | ⟨e, he, rfl⟩
  · exact ⟨t.withHostSide c f (s.out ++ emitted i s), by rw [hok]; rfl, rfl, rfl, rfl, rfl, rfl, (exec_out h).symm⟩
  · exact ⟨_, by rw [he]; rfl, rfl, rfl, rfl, rfl, rfl, rfl⟩

/-- Settles O24: a completed instruction keeps the control registers or is HLT, and one that raises takes a fault. -/
theorem statusIsWrittenOnlyByHaltAndFaults : Obligations.StatusIsWrittenOnlyByHaltAndFaults := by
  intro i s t h
  rcases exec_cases h with hok | ⟨e, -, rfl⟩
  · exact (effectOf_shape hok).control_cases.imp_right .inl
  · exact .inr (.inr (faultTaken_takeFault s e))

/-- MemRead reads memory alone (20_memory.md R30). -/
theorem State.memRead_congr {s t : State} (h : t.mem = s.mem) (a : Nat) : t.memRead a = s.memRead a := by
  simp only [State.memRead, h]

/-- MemRead after a write of one cell, at any other address (R30). -/
theorem State.memRead_of_write_ne {s t : State} {a b : Nat} {v : Byte} (h : t.mem = Memory.write s.mem a v)
    (hne : b ≠ a) : t.memRead b = s.memRead b := by
  simp only [State.memRead, h, Memory.read_write_ne s.mem v hne]

/-- MemRead after a write of one cell of a canonical memory, at that cell (R30). -/
theorem State.memRead_of_write_same {s t : State} {a : Nat} {v : Byte} (h : t.mem = Memory.write s.mem a v)
    (hs : Memory.wf s.mem) (ha : a < 256) : t.memRead a = .ok v := by
  rw [t.memRead_ok ha, h, Memory.read_write_same hs]

/-- A completed instruction leaves every byte but the one that PUSH and CALL store (20_memory.md section 4). -/
theorem Shape.memRead_cases {i : Instr} {s t : State} (h : Shape i s t) (a : Nat) :
    t.memRead a = s.memRead a ∨ ((∃ r, i = .push r ∨ i = .call r) ∧ a = s.pushAddress) := by
  rcases h.mem_cases with hmem | ⟨hi, v, hmem⟩
  · exact .inl (State.memRead_congr hmem a)
  · by_cases ha : a = s.pushAddress
    · exact .inr ⟨hi, ha⟩
    · exact .inl (State.memRead_of_write_ne hmem ha)

/-- Settles O25: a fault changes no byte, and a completed instruction only the one that PUSH and CALL store. -/
theorem memoryIsWrittenOnlyByPushAndCall : Obligations.MemoryIsWrittenOnlyByPushAndCall := by
  intro i s t a h hne
  rcases exec_cases h with hok | ⟨e, -, rfl⟩
  · exact ((effectOf_shape hok).memRead_cases a).resolve_left hne
  · exact absurd rfl hne

/-! ## NotImplemented -/

/-- The seventeen identities that have no executable handler (30_encoding.md R58). -/
theorem handled_eq_false_iff (m : Mnemonic) :
    m.handled = false ↔ m ∈ [Mnemonic.sub, .mod, .not, .or, .xor, .shl, .shr,
      .nop, .ld, .st, .pra, .int, .iret, .jgt, .jlt, .jle, .jge] := by
  cases m <;> decide

/-- An identity without a handler raises NotImplemented with its opcode byte (44_unimplemented.md R170). -/
theorem effectOf_of_not_handled {i : Instr} (h : i.mnemonic.handled = false) (s : State) :
    effectOf i s = .error (.notImplemented i.mnemonic.opcode) := by
  cases i with
  | nop | iret | pra a | int a | jgt a | jlt a | jle a | jge a | not a => rfl
  | ld a b | st a b | sub a b | mod a b | or a b | xor a b | shl a b | shr a b => rfl
  | _ => cases h

/-- An identity without a handler takes the fault NotImplemented, whatever its operands, and nothing else changes
(60_exceptions.md R183). -/
theorem exec_of_not_handled {i : Instr} (h : i.mnemonic.handled = false) (s : State) :
    exec i s = .next (faultedFrom s .notImplemented (.opcode i.mnemonic.opcode)) := by
  rw [exec_eq_complete, effectOf_of_not_handled h]
  rfl

/-- NotImplemented comes about from an identity without a handler alone (R183). -/
theorem not_handled_of_exec {i : Instr} {s t : State} (hc : s.cause = .none) (h : exec i s = .next t)
    (ht : t.cause = .notImplemented) : i.mnemonic.handled = false := by
  rcases exec_cases h with hok | ⟨e, he, rfl⟩
  · exact absurd (((effectOf_cause hok).trans hc).symm.trans ht) (by decide)
  · cases effectOf_raised he with
    | notImplemented hi => exact hi
    | outOfRange n hn hi => cases ht
    | divisionByZero a b ha hb h0 hi => cases ht

/-- The ALU raises NotImplemented for every identity but its seven operations (41_alu.md R107). -/
theorem aluApply_of_not_mem {m : Mnemonic} (op a b : Byte) (s : State)
    (h : m ∉ [Mnemonic.add, .mul, .div, .inc, .dec, .and, .cmp]) :
    aluApply m op a b s = .error (.notImplemented op) := by
  cases m with
  | add | mul | div | inc | dec | and | cmp => exact absurd (by decide) h
  | _ => rfl

/-- Settles O27: an identity without a handler raises it, and no other can. -/
theorem notImplementedIsRaisedByTheUnhandledAlone : Obligations.NotImplementedIsRaisedByTheUnhandledAlone := by
  refine ⟨fun i s t hc h => ?_, fun m op a b s => aluApply_of_not_mem op a b s⟩
  rw [← handled_eq_false_iff]
  have answer (hi : i.mnemonic.handled = false) :
      t = faultedFrom s .notImplemented (.opcode i.mnemonic.opcode) :=
    Host.Outcome.next.inj (h.symm.trans (exec_of_not_handled hi s))
  refine ⟨⟨not_handled_of_exec hc h, fun hi => by rw [answer hi]⟩, fun ht => ?_⟩
  rw [answer (not_handled_of_exec hc h ht)]
  exact ⟨rfl, rfl, rfl⟩

/-- Settles O33: none of the seven has a handler. -/
theorem unimplementedAluOperationsFault : Obligations.UnimplementedAluOperationsFault := fun s _ _ =>
  ⟨exec_of_not_handled rfl s, exec_of_not_handled rfl s, exec_of_not_handled rfl s, exec_of_not_handled rfl s,
    exec_of_not_handled rfl s, exec_of_not_handled rfl s, exec_of_not_handled rfl s⟩

/-- Settles O34: none of the six has a handler. -/
theorem instructionsWithoutHandlerFault : Obligations.InstructionsWithoutHandlerFault := fun s _ _ =>
  ⟨exec_of_not_handled rfl s, exec_of_not_handled rfl s, exec_of_not_handled rfl s, exec_of_not_handled rfl s,
    exec_of_not_handled rfl s, exec_of_not_handled rfl s⟩

/-- Settles O35: none of the four has a handler. -/
theorem otherConditionalJumpsFault : Obligations.OtherConditionalJumpsFault := fun s _ =>
  ⟨exec_of_not_handled rfl s, exec_of_not_handled rfl s, exec_of_not_handled rfl s, exec_of_not_handled rfl s⟩

end Sys2Proof.Machine

/-! PROOFS. 20_memory.md section 1, 10_state.md section 7 and 70_reset_and_hazards.md section 2: the memory primitives,
the canonical form, and the host's image load. -/

namespace Sys2Proof.Machine

/-! ## The primitives -/

/-- MemWrite outside the address space (20_memory.md R30). -/
theorem State.memWrite_error (s : State) {a : Nat} (v : Byte) (h : ¬ a < 256) :
    s.memWrite a v = .error (.outOfRange .mem a) := by
  simp [State.memWrite, h]

/-- Settles O4: each clause is a law of MemRead or MemWrite. -/
theorem memoryPrimitivesCheckTheRange : Obligations.MemoryPrimitivesCheckTheRange := by
  intro s a v hs
  refine ⟨fun h => ?_, fun h => ?_⟩
  · have ha : ¬ a < 256 := by omega
    exact ⟨s.memRead_error ha, s.memWrite_error v ha⟩
  · have ha : a < 256 := by omega
    exact ⟨s.memRead_ok ha, _, s.memWrite_ok v ha, State.memRead_of_write_same rfl hs ha,
      fun b hb => State.memRead_of_write_ne rfl hb, Memory.wf_write hs ha v, rfl⟩

/-! ## The canonical form -/

theorem Memory.read_cons_same (c : Host.Cell) (m : Memory) : Memory.read (c :: m) c.1 = c.2 := by
  simp [Memory.read]

theorem Memory.read_cons_ne {c : Host.Cell} (m : Memory) {a : Nat} (h : c.1 ≠ a) :
    Memory.read (c :: m) a = Memory.read m a := by
  simp [Memory.read, h]

/-- The first listed address of a canonical memory is the lowest that does not read as unlisted. -/
theorem Memory.head_le_of_read_ne {c : Host.Cell} {m : Memory} (hm : Memory.wf (c :: m)) {a : Nat}
    (h : Memory.read (c :: m) a ≠ Memory.unlisted) : c.1 ≤ a := by
  obtain ⟨hlow, -, -, -⟩ := Memory.wf_cons.mp hm
  by_contra hlt
  refine h (Memory.read_of_lt fun d hd => ?_)
  rcases List.mem_cons.mp hd with rfl | hd
  · omega
  · exact lt_trans (by omega) (hlow d hd)

/-- Settles O5, by induction on the first memory: a first cell is listed in the other too, at the same place. -/
theorem canonicalMemoryIsDeterminedByItsCells : Obligations.CanonicalMemoryIsDeterminedByItsCells := by
  intro m
  induction m with
  | nil =>
    intro n _ hn heq
    cases n with
    | nil => rfl
    | cons d n =>
      obtain ⟨-, hlt, hne, -⟩ := Memory.wf_cons.mp hn
      exact absurd ((heq d.1 (Nat.le_of_lt_succ hlt)).trans (Memory.read_cons_same d n)).symm hne
  | cons c m ih =>
    intro n hm hn heq
    obtain ⟨hlowm, hltc, hnec, hwfm⟩ := Memory.wf_cons.mp hm
    have hc := (Memory.read_cons_same c m).symm.trans (heq c.1 (Nat.le_of_lt_succ hltc))
    cases n with
    | nil => exact absurd hc hnec
    | cons d n =>
      obtain ⟨hlown, hltd, hned, hwfn⟩ := Memory.wf_cons.mp hn
      have hd := (heq d.1 (Nat.le_of_lt_succ hltd)).trans (Memory.read_cons_same d n)
      have haddr : c.1 = d.1 := le_antisymm
        (Memory.head_le_of_read_ne hm (hd ▸ hned)) (Memory.head_le_of_read_ne hn (hc ▸ hnec))
      have hcell : c = d := Prod.ext haddr (hc.trans (haddr ▸ Memory.read_cons_same d n))
      subst hcell
      refine congrArg (c :: ·) (ih n hwfm hwfn fun a ha => ?_)
      by_cases hca : c.1 = a
      · subst hca
        rw [Memory.read_of_lt hlowm, Memory.read_of_lt hlown]
      · simpa only [Memory.read_cons_ne _ hca] using heq a ha

/-! ## The image load -/

/-- Bytes that fit are stored at rising addresses, and nothing else changes (70_reset_and_hazards.md R214). -/
theorem State.storeFrom_ok (bytes : List Byte) : ∀ {start : Nat} {s : State}, start + bytes.length ≤ 256 →
    Memory.wf s.mem → ∃ t, State.storeFrom start bytes s = .ok t ∧
      (∀ (i : Nat) (h : i < bytes.length), t.memRead (start + i) = .ok bytes[i]) ∧
      (∀ a : Nat, a < start ∨ start + bytes.length ≤ a → t.memRead a = s.memRead a) ∧
      Memory.wf t.mem ∧ t = { s with mem := t.mem } := by
  induction bytes with
  | nil => exact fun _ hs => ⟨_, rfl, by simp, fun _ _ => rfl, hs, rfl⟩
  | cons v rest ih =>
    intro start s hlen hs
    rw [List.length_cons] at hlen
    have hstart : start < 256 := by omega
    obtain ⟨t, hstore, hin, hout, hwf, hframe⟩ :=
      ih (start := start + 1) (s := { s with mem := Memory.write s.mem start v }) (by omega)
        (Memory.wf_write hs hstart v)
    refine ⟨t, ?_, fun i hi => ?_, fun a ha => ?_, hwf, hframe⟩
    · rw [State.storeFrom, s.memWrite_ok v hstart]
      exact hstore
    · cases i with
      | zero => exact (hout start (.inl (by omega))).trans (State.memRead_of_write_same rfl hs hstart)
      | succ i => simpa [Nat.add_assoc, Nat.add_comm 1 i] using hin i (Nat.lt_of_succ_lt_succ hi)
    · rw [List.length_cons] at ha
      exact (hout a (by omega)).trans (State.memRead_of_write_ne rfl (by omega))

/-- Bytes that do not fit are refused at the first address outside memory (60_exceptions.md R185). -/
theorem State.storeFrom_error (bytes : List Byte) : ∀ {start : Nat} (s : State), start ≤ 256 →
    256 < start + bytes.length → State.storeFrom start bytes s = .error (.outOfRange 256) := by
  induction bytes with
  | nil => exact fun s hle hlt => absurd hlt (by simpa using hle)
  | cons v rest ih =>
    intro start s hle hlt
    rw [List.length_cons] at hlt
    rw [State.storeFrom]
    by_cases hstart : start < 256
    · rw [s.memWrite_ok v hstart]
      exact ih _ hstart (by omega)
    · obtain rfl : start = 256 := by omega
      rw [s.memWrite_error v hstart]

/-- Settles O6: the image is stored from address 0 of the reset state. -/
theorem launchStateHoldsTheImage : Obligations.LaunchStateHoldsTheImage := by
  refine fun image => ⟨fun hlen => ?_, fun hlen => State.storeFrom_error image _ (by omega) (by omega)⟩
  obtain ⟨t, hstore, hin, hout, hwf, hframe⟩ :=
    State.storeFrom_ok image (start := 0) (s := State.reset) (by omega) Memory.wf_reset
  refine ⟨t, hstore, fun i hi => ?_, fun i hi hle => ?_, hwf, hframe⟩
  · simpa using hin i hi
  · exact (hout i (.inr (by omega))).trans (State.memRead_reset hle)

/-! ## The lines of an image file -/

/-- The binary digit of a bit. -/
def digit (b : Bool) : Char := if b then '1' else '0'

theorem digit_ne_hash (b : Bool) : digit b ≠ '#' := by cases b <;> decide

theorem digit_not_whitespace (b : Bool) : (digit b).isWhitespace = false := by cases b <;> decide

theorem binaryValue_digit_cons (b : Bool) (cs : List Char) (acc : Nat) :
    binaryValue (digit b :: cs) acc = binaryValue cs (2 * acc + b.toNat) := by
  cases b <;> rfl

/-- The eight digits of a byte, from bit 7 to bit 0. -/
def byteDigits (v : Byte) : List Char := (List.range 8).map fun k => digit (v.getMsbD k)

/-- The first `k` digits of a byte have the value of its upper `k` bits. -/
theorem binaryValue_upper_digits (v : Byte) {k : Nat} (hk : k ≤ 8) : ∀ cs : List Char,
    binaryValue ((List.range k).map (fun j => digit (v.getMsbD j)) ++ cs) 0 =
      binaryValue cs (v.toNat / 2 ^ (8 - k)) := by
  induction k with
  | zero => simp [Nat.div_eq_of_lt v.isLt]
  | succ k ih =>
    intro cs
    have hbit : (v.getMsbD k).toNat = v.toNat / 2 ^ (7 - k) % 2 := by
      rw [← Nat.toNat_testBit, BitVec.testBit_toNat, BitVec.getMsbD]
      simp [show k < 8 by omega]
    rw [List.range_succ, List.map_append, List.append_assoc, ih (by omega)]
    simp only [List.map_cons, List.map_nil, List.cons_append, List.nil_append]
    rw [binaryValue_digit_cons, hbit]
    have hdiv : v.toNat / 2 ^ (8 - k) = v.toNat / 2 ^ (7 - k) / 2 := by
      rw [Nat.div_div_eq_div_mul, ← Nat.pow_succ, show 8 - k = (7 - k).succ by omega]
    rw [hdiv, Nat.div_add_mod, show 8 - (k + 1) = 7 - k by omega]

/-- The eight digits of a byte have its value. -/
theorem binaryValue_byteDigits (v : Byte) : binaryValue (byteDigits v) 0 = some v.toNat := by
  simpa [byteDigits, binaryValue] using binaryValue_upper_digits v le_rfl []

/-- Characters none of which is white space are not trimmed. -/
theorem trimLine_of_no_whitespace {cs : List Char} (h : ∀ c ∈ cs, c.isWhitespace = false) : trimLine cs = cs := by
  have keep {l : List Char} (hl : ∀ c ∈ l, c.isWhitespace = false) : l.dropWhile Char.isWhitespace = l := by
    rw [List.dropWhile_eq_self_iff]
    exact fun hpos => by simp [hl _ (List.getElem_mem hpos)]
  rw [trimLine, keep h, keep fun c hc => h c (List.mem_reverse.mp hc), List.reverse_reverse]

theorem byteDigits_length (v : Byte) : (byteDigits v).length = 8 := rfl

theorem eq_digit_of_mem_byteDigits {v : Byte} {c : Char} (h : c ∈ byteDigits v) : ∃ b, c = digit b := by
  obtain ⟨k, -, rfl⟩ := List.mem_map.mp h
  exact ⟨_, rfl⟩

/-- A line whose portion before `#` is the digits of a byte is that byte (70_reset_and_hazards.md R215). -/
theorem parseLine_of_takeWhile {line : List Char} {v : Byte} (h : line.takeWhile (· != '#') = byteDigits v) :
    parseLine line = .byte v := by
  have htrim : trimLine (byteDigits v) = byteDigits v := trimLine_of_no_whitespace fun c hc => by
    obtain ⟨b, rfl⟩ := eq_digit_of_mem_byteDigits hc
    exact digit_not_whitespace b
  rw [parseLine, h, htrim]
  split
  · next hnil => exact absurd (congrArg List.length hnil) (by simp [byteDigits_length])
  · simp [byteDigits_length, binaryValue_byteDigits, wrap]

/-- A comment ends the digits (R215). -/
theorem takeWhile_byteDigits_append (v : Byte) (cs : List Char) :
    (byteDigits v ++ cs).takeWhile (· != '#') = byteDigits v ++ cs.takeWhile (· != '#') := by
  refine List.takeWhile_append_of_pos fun c hc => ?_
  obtain ⟨b, rfl⟩ := eq_digit_of_mem_byteDigits hc
  simpa using digit_ne_hash b

/-- Settles O7: the portion before `#` is the eight digits, or nothing. -/
theorem imageLineOfDigitsIsItsByte : Obligations.ImageLineOfDigitsIsItsByte := by
  refine ⟨fun v comment => ⟨?_, ?_⟩, rfl, fun comment => by simp [parseLine, trimLine]⟩
  · exact parseLine_of_takeWhile (line := byteDigits v) (by simpa using takeWhile_byteDigits_append v [])
  · exact parseLine_of_takeWhile (line := byteDigits v ++ '#' :: comment)
      (by simpa using takeWhile_byteDigits_append v ('#' :: comment))

end Sys2Proof.Machine

/-! PROOFS. 41_alu.md: the seven operations of the ALU. -/

namespace Sys2Proof

theorem toNat_wrap (n : Nat) : (wrap n).toNat = n % 256 := by
  simp [wrap]

end Sys2Proof

namespace Sys2Proof.Machine

/-! ## From the effect of an instruction to its answer -/

/-- An instruction whose effect succeeds answers its writes (40_execution_cycle.md R74). -/
theorem exec_of_ok {i : Instr} {s t : State} (h : effectOf i s = .ok t) : exec i s = .next t := by
  rw [exec_eq_complete, h, complete_ok]

/-- An instruction that raises answers the fault taken (60_exceptions.md R186). -/
theorem exec_of_error {i : Instr} {s : State} {e : Exception} (h : effectOf i s = .error e) :
    exec i s = .next (faultedFrom s e.cause e.detail) := by
  rw [exec_eq_complete, h, complete_error]
  rfl

/-- The same for an instruction of `len` bytes that leaves its pc update to the cycle (R73). -/
theorem exec_of_advance {i : Instr} {s t u : State} {len : Nat} {r : Except Exception State}
    (hi : effectOf i s = thenAdvance len r) (hr : r = .ok u) (ht : t = u.advance len) : exec i s = .next t :=
  exec_of_ok (by rw [hi, hr, thenAdvance_ok, ht])

theorem exec_of_advance_error {i : Instr} {s : State} {len : Nat} {r : Except Exception State} {e : Exception}
    (hi : effectOf i s = thenAdvance len r) (hr : r = .error e) :
    exec i s = .next (faultedFrom s e.cause e.detail) :=
  exec_of_error (by rw [hi, hr, thenAdvance_error])

/-! ## The operations -/

/-- The index faults of an operation on two registers, the first operand's before the second's (41_alu.md R104). -/
theorem exec_twoRegister_error {i : Instr} {f : Byte → Byte → Byte} {s : State} {a b len : Nat}
    (hi : effectOf i s = thenAdvance len (twoRegister f a b s)) :
    (8 ≤ a → exec i s = .next (faultedFrom s .outOfRange (.place .reg a))) ∧
    (a < 8 → 8 ≤ b → exec i s = .next (faultedFrom s .outOfRange (.place .reg b))) :=
  ⟨fun ha => exec_of_advance_error hi (twoRegister_error_a f s b ha),
    fun ha hb => exec_of_advance_error hi (twoRegister_error_b f s ha hb)⟩

/-- Settles O28: both are operations on two registers, whose exact result is wrapped. -/
theorem addAndMulStoreModulo256 : Obligations.AddAndMulStoreModulo256 := by
  refine fun s a b => ⟨fun ha hb => ⟨addValue s.x[a] s.x[b], mulValue s.x[a] s.x[b], toNat_wrap _, toNat_wrap _,
    exec_of_advance rfl (twoRegister_ok _ s ha hb) rfl, exec_of_advance rfl (twoRegister_ok _ s ha hb) rfl⟩, ?_⟩
  simp only [List.forall_mem_cons, List.not_mem_nil, false_implies, implies_true, and_true]
  exact ⟨exec_twoRegister_error rfl, exec_twoRegister_error rfl⟩

/-- The quotient of two bytes fits a byte (R92). -/
theorem toNat_divValue (va vb : Byte) : (divValue va vb).toNat = va.toNat / vb.toNat := by
  rw [divValue, toNat_wrap]
  exact Nat.mod_eq_of_lt ((Nat.div_le_self _ _).trans_lt va.isLt)

/-- Settles O29: one lemma on the effect of DIV for each of its four clauses. -/
theorem divStoresTheFloorQuotient : Obligations.DivStoresTheFloorQuotient := by
  refine fun s a b => ⟨fun ha hb h0 => ⟨divValue s.x[a] s.x[b], toNat_divValue _ _, ?_⟩, fun ha hb h0 => ?_,
    fun ha => exec_of_advance_error rfl (divEffect_error_a s b ha),
    fun ha hb => exec_of_advance_error rfl (divEffect_error_b s ha hb)⟩
  · have hne : s.x[b] ≠ 0#8 := fun hzero => h0 (by rw [hzero]; rfl)
    exact exec_of_advance rfl (divEffect_ok s ha hb hne) rfl
  · have hzero : s.x[b] = 0#8 := BitVec.eq_of_toNat_eq h0
    exact exec_of_advance_error rfl (divEffect_zero s ha hb hzero)

/-- The successor of a byte, 255 wrapping to 0 (R93). -/
theorem toNat_incValue (v : Byte) : (incValue v).toNat = if v.toNat = 255 then 0 else v.toNat + 1 := by
  have hlt : v.toNat < 256 := v.isLt
  rw [incValue, toNat_wrap]
  split <;> omega

/-- The predecessor of a byte, 0 wrapping to 255 (R94). -/
theorem toNat_decValue (v : Byte) : (decValue v).toNat = if v.toNat = 0 then 255 else v.toNat - 1 := by
  have hlt : v.toNat < 256 := v.isLt
  rw [decValue, toNat_wrap]
  split <;> omega

/-- Settles O30: both are operations on one register, whose wrapped result is the step of the byte. -/
theorem incAndDecStepTheRegister : Obligations.IncAndDecStepTheRegister := by
  refine fun s a => ⟨fun ha => ⟨incValue s.x[a], decValue s.x[a], toNat_incValue _, toNat_decValue _,
    exec_of_advance rfl (oneRegister_ok _ s ha) rfl, exec_of_advance rfl (oneRegister_ok _ s ha) rfl⟩, fun ha => ?_⟩
  simp only [List.forall_mem_cons, List.not_mem_nil, false_implies, implies_true, and_true]
  exact ⟨exec_of_advance_error rfl (oneRegister_error _ s ha), exec_of_advance_error rfl (oneRegister_error _ s ha)⟩

/-- Settles O31: an operation on two registers whose result is taken bit by bit. -/
theorem andIsBitwise : Obligations.AndIsBitwise := fun s _ _ =>
  ⟨fun ha hb => ⟨_, fun _ _ => BitVec.getLsbD_and, exec_of_advance rfl (twoRegister_ok andValue s ha hb) rfl⟩,
    exec_twoRegister_error rfl⟩

/-! ## CMP -/

theorem compareFlag_of_eq {va vb : Byte} (h : va = vb) : compareFlag va vb = .isTrue := if_pos h

theorem compareFlag_of_ne {va vb : Byte} (h : va ≠ vb) : compareFlag va vb = .isFalse := if_neg h

/-- CMP of two registers in range (41_alu.md R96). -/
theorem exec_cmp (s : State) {a b : Nat} (ha : a < 8) (hb : b < 8) :
    exec (.cmp a b) s = .next { s with fl := compareFlag s.x[a] s.x[b], pc := s.pc + 3 } :=
  exec_of_advance rfl (cmpEffect_ok s ha hb) rfl

/-- No instruction but CMP writes the flag, and none writes UNSET (10_state.md R16). -/
theorem exec_fl_cases {i : Instr} {s t : State} (h : exec i s = .next t) :
    t.fl = s.fl ∨ (∃ a b, i = .cmp a b) ∧ t.fl ≠ .unset := by
  rcases exec_cases h with hok | ⟨e, -, rfl⟩
  · exact (effectOf_shape hok).fl_cases
  · exact .inl rfl

/-- Settles O32: the effect of CMP on each kind of operands, and what any instruction may do to the flag. -/
theorem compareAloneWritesTheFlag : Obligations.CompareAloneWritesTheFlag :=
  ⟨fun s _ b => ⟨fun ha hb => ⟨_, compareFlag_of_eq, compareFlag_of_ne, exec_cmp s ha hb⟩,
      fun ha => exec_of_advance_error rfl (cmpEffect_error_a s b ha),
      fun ha hb => exec_of_advance_error rfl (cmpEffect_error_b s ha hb)⟩,
    fun _ _ _ h hne => ((exec_fl_cases h).resolve_left hne).symm⟩

end Sys2Proof.Machine

/-! PROOFS. 42_data_stack_io.md: load-immediate, print and the stack. -/

namespace Sys2Proof.Machine

/-- Settles O36: LDI is a register write of the immediate itself. -/
theorem loadImmediateWritesTheByte : Obligations.LoadImmediateWritesTheByte := fun s _ imm =>
  ⟨fun ha => exec_of_advance rfl (s.writeReg_ok imm ha) rfl,
    fun ha => exec_of_advance_error rfl (s.writeReg_error imm ha)⟩

/-- Settles O37: the effect of PRN for an index in range and for one out of it. -/
theorem printEmitsTheRegister : Obligations.PrintEmitsTheRegister := fun s _ =>
  ⟨fun ha => exec_of_advance rfl (prnEffect_ok s ha) rfl, fun ha => exec_of_advance_error rfl (prnEffect_error s ha)⟩

/-! ## The stack pointer -/

/-- The address of a push is the stack pointer less 1, 0 wrapping to 255 (R121, the spec's decision D15). -/
theorem State.pushAddress_eq (s : State) : s.pushAddress = (s.x[7].toNat + 255) % 256 := toNat_wrap _

/-- The registers after the decrement: the stack pointer moved, the others as they were (R121). -/
theorem State.decrementSp_getElem (s : State) {a : Nat} (ha : a < 8) :
    s.decrementSp.x[a] = if a = 7 then wrap (s.x[7].toNat + 255) else s.x[a] := by
  simp only [State.decrementSp_x, Vector.getElem_set, State.sp, eq_comm (a := 7)]

/-- The registers after a POP: `x[a]` the byte popped and the stack pointer moved, or for POP R7 the byte plus 1
(R125, the spec's decision D17). -/
theorem popped_registers (s : State) {a : Nat} (ha : a < 8) (v : Byte) :
    (State.incrementSp { s with x := s.x.set a v }).x =
      if a = 7 then s.x.set 7 (wrap (v.toNat + 1)) else (s.x.set a v).set 7 (wrap (s.x[7].toNat + 1)) := by
  by_cases h7 : a = 7
  · subst h7
    simp [State.sp]
  · simp [State.sp, h7]

/-! ## PUSH and POP -/

/-- PUSH of a register in range (R124). -/
theorem exec_push (s : State) {a : Nat} (ha : a < 8) :
    exec (.push a) s = .next { s.decrementSp with
      mem := Memory.write s.mem s.pushAddress (s.decrementSp.x[a]), pc := s.pc + 2 } :=
  exec_of_advance rfl (pushEffect_ok s ha) rfl

/-- POP into a register in range (R125). -/
theorem exec_pop (s : State) {a : Nat} (ha : a < 8) :
    exec (.pop a) s = .next { s with
      x := if a = 7 then s.x.set 7 (wrap ((Memory.read s.mem s.sp.toNat).toNat + 1))
        else (s.x.set a (Memory.read s.mem s.sp.toNat)).set 7 (wrap (s.x[7].toNat + 1)),
      pc := s.pc + 2 } :=
  exec_of_advance rfl (popEffect_ok s ha) (by rw [← popped_registers s ha]; rfl)

/-- Settles O38: the cell written is read back, and every other cell reads as before. -/
theorem pushStoresBelowTheStackPointer : Obligations.PushStoresBelowTheStackPointer := by
  refine fun s a hs => ⟨fun ha => ⟨wrap (s.x[7].toNat + 255), _, toNat_wrap _, exec_push s ha, rfl, ?_, fun c hc => ?_,
    rfl⟩, fun ha => exec_of_advance_error rfl (pushEffect_error s ha)⟩
  · rw [← s.decrementSp_getElem ha]
    exact State.memRead_of_write_same rfl hs s.pushAddress_lt
  · exact State.memRead_of_write_ne rfl hc

/-- Settles O39: POP R7 and the other forms are the two branches of the registers after a POP. -/
theorem popLoadsFromTheStackPointer : Obligations.PopLoadsFromTheStackPointer := fun s _ =>
  ⟨fun ha => ⟨_, _, _, s.memRead_ok s.sp.isLt, toNat_wrap _, toNat_wrap _, exec_pop s ha⟩,
    fun ha => exec_of_advance_error rfl (popEffect_error s ha)⟩

/-! ## The round trip -/

/-- A RUNNING core runs the one-operand instruction whose two bytes stand at `pc` (40_execution_cycle.md R70, R71). -/
theorem step_of_bytes {s : State} {m : Mnemonic} {a : Byte} (hr : s.status = .running) (hpc : s.pc ≤ 253)
    (hop : s.memRead s.pc = .ok m.opcode) (ha : s.memRead (s.pc + 1) = .ok a) :
    ∃ b, step s = exec (assemble m a b) s := by
  rw [s.memRead_ok (by omega), Except.ok.injEq] at hop ha
  have hm : decodeOpcode (Memory.read s.mem s.pc) = some m := by rw [hop, decodeOpcode_opcode]
  have hf := State.fetch_ok hpc hm
  rw [ha] at hf
  exact ⟨_, step_of_fetch hr hf⟩

/-- The stack pointer moves down and up again (R126). -/
theorem wrap_sub_add_one (v : Byte) : wrap ((wrap (v.toNat + 255)).toNat + 1) = v := by
  have hlt : v.toNat < 256 := v.isLt
  apply BitVec.eq_of_toNat_eq
  rw [toNat_wrap, toNat_wrap]
  omega

/-- The state after a PUSH of a register in range (R124). -/
def State.pushed (s : State) (v : Byte) : State :=
  { s.decrementSp with mem := Memory.write s.mem s.pushAddress v, pc := s.pc + 2 }

/-- A register below 7 written, and the stack pointer moved down and up: the register alone has changed. -/
theorem set_seven_set_seven (x : Vector Byte 8) {r : Nat} (hr : r < 7) (p v : Byte) :
    ((x.set 7 p).set r v).set 7 x[7] = x.set r v := by
  rw [Vector.set_comm _ _ (by omega), Vector.set_set, Vector.set_getElem_self]

/-- A POP after a PUSH takes the value pushed, and the stack pointer is where it was before both (R126). -/
theorem exec_pop_pushed {s : State} {r : Nat} (hr : r < 7) (hwf : Memory.wf s.mem) (v : Byte) :
    ∃ u, exec (.pop r) (s.pushed v) = .next u ∧ u.x = s.x.set r v ∧ u.pc = s.pc + 4 := by
  refine ⟨_, exec_pop _ (by omega), ?_, rfl⟩
  have hsp : (s.pushed v).x[7] = wrap (s.x[7].toNat + 255) := by simp [State.pushed, State.sp]
  have hread : Memory.read (s.pushed v).mem (s.pushed v).sp.toNat = v := by
    rw [State.sp, hsp]
    exact Memory.read_write_same hwf _ v
  rw [if_neg (by omega), hread, hsp, wrap_sub_add_one]
  exact set_seven_set_seven s.x hr _ v

/-- Settles O40: the POP is fetched as it was before the PUSH, for its own bytes are not the pushed cell. -/
theorem pushThenPopMovesTheValue : Obligations.PushThenPopMovesTheValue := by
  intro s r r' hr hr' hwf hrun hpc h0 h1 h2 h3 hne2 hne3
  rw [← s.pushAddress_eq] at hne2 hne3
  have hrn : (BitVec.ofNat 8 r).toNat = r := toNat_ofNat_of_fits (by simpa [operandFits] using by omega)
  have hrn' : (BitVec.ofNat 8 r').toNat = r' := toNat_ofNat_of_fits (by simpa [operandFits] using by omega)
  have hr8 : r < 8 := by omega
  have hpush : step s = .next (s.pushed s.x[r]) := by
    obtain ⟨b, hstep⟩ := step_of_bytes (m := .push) hrun (by omega) h0 h1
    rw [hstep, assemble, hrn, exec_push s hr8, s.decrementSp_getElem hr8, if_neg (by omega), State.pushed]
  have hpop : step (s.pushed s.x[r]) = exec (.pop r') (s.pushed s.x[r]) := by
    have h2' := (State.memRead_of_write_ne (t := s.pushed s.x[r]) rfl (Ne.symm hne2)).trans h2
    have h3' := (State.memRead_of_write_ne (t := s.pushed s.x[r]) rfl (Ne.symm hne3)).trans h3
    obtain ⟨b, hstep⟩ := step_of_bytes (m := .pop) (s := s.pushed s.x[r]) hrun (show s.pc + 2 ≤ 253 by omega) h2' h3'
    rw [hstep, assemble, hrn']
  obtain ⟨u, hu, hx, hupc⟩ := exec_pop_pushed (r := r') (by omega) hwf s.x[r]
  refine ⟨_, u, hpush, hpop.trans hu, ?_, ?_, fun k hk hkr => ?_, hupc⟩
  · simp [hx, hr8, show r' < 8 by omega]
  · simp [hx, show r' ≠ 7 by omega]
  · rw [hx, Vector.getElem?_set_ne _ (Ne.symm hkr)]

end Sys2Proof.Machine

/-! PROOFS. 43_control_transfer.md and 40_execution_cycle.md section 3: jumps, call and return, the halt, and the run. -/

namespace Sys2Proof.Machine

/-! ## Jumps -/

/-- Settles O42: JMP is the jump without a condition. -/
theorem jumpGoesToTheRegister : Obligations.JumpGoesToTheRegister := fun s _ =>
  ⟨fun ha => exec_of_ok (jumpTo_ok s ha), fun ha => exec_of_error (e := .outOfRange .reg _) (jumpTo_error s ha)⟩

/-- What a conditional jump answers, in its three cases: the index is examined only where the jump is taken
(43_control_transfer.md R143, R144, the spec's decision D16). -/
theorem exec_branch {i : Instr} {s : State} {c : Bool} {a : Nat}
    (hi : effectOf i s = if c then jumpTo a s else .ok (s.setPc (s.pc + 2))) :
    (c = true → ∀ ha : a < 8, exec i s = .next { s with pc := s.x[a].toNat }) ∧
    (c = true → 8 ≤ a → exec i s = .next (faultedFrom s .outOfRange (.place .reg a))) ∧
    (c = false → exec i s = .next { s with pc := s.pc + 2 }) := by
  refine ⟨fun hc ha => exec_of_ok ?_, fun hc ha => exec_of_error (e := .outOfRange .reg a) ?_, fun hc => exec_of_ok ?_⟩
  · rw [hi, if_pos hc, jumpTo_ok s ha]; rfl
  · rw [hi, if_pos hc, jumpTo_error s ha]
  · rw [hi, hc]; rfl

theorem flagIsTrue_iff (f : Flag) : flagIsTrue f = true ↔ f = .isTrue := by
  cases f <;> decide

theorem flagIsFalse_iff (u : Bool) (f : Flag) :
    flagIsFalse u f = true ↔ f = .isFalse ∨ (f = .unset ∧ u = true) := by
  cases f <;> simp [flagIsFalse]

/-- Settles O43: a conditional jump on the flag being TRUE. -/
theorem jumpIfEqualTestsTheFlag : Obligations.JumpIfEqualTestsTheFlag := by
  intro s a
  rw [← flagIsTrue_iff, ne_eq, ← flagIsTrue_iff, Bool.not_eq_true]
  exact exec_branch rfl

/-- Settles O44: a conditional jump on the flag being FALSE, or UNSET where the parameter says so. -/
theorem jumpIfNotEqualTestsTheFlag : Obligations.JumpIfNotEqualTestsTheFlag := by
  intro s a taken
  have htaken : taken ↔ flagIsFalse flagUnsetAsFalse s.fl = true := (flagIsFalse_iff _ _).symm
  rw [htaken, Bool.not_eq_true]
  exact exec_branch rfl

/-- Settles O48: the flag that CMP writes decides both jumps. -/
theorem compareDecidesTheJump : Obligations.CompareDecidesTheJump := by
  intro s a b c ha hb hc
  obtain ⟨jeqTaken, -, jeqPast⟩ := jumpIfEqualTestsTheFlag
    { s with fl := compareFlag s.x[a] s.x[b], pc := s.pc + 3 } c
  obtain ⟨jneTaken, -, jnePast⟩ := jumpIfNotEqualTestsTheFlag
    { s with fl := compareFlag s.x[a] s.x[b], pc := s.pc + 3 } c
  by_cases heq : s.x[a] = s.x[b]
  · have hfl := compareFlag_of_eq heq
    exact ⟨_, _, _, exec_cmp s ha hb, jeqTaken hfl hc, jnePast (by simp [hfl]), (if_pos heq).symm, (if_pos heq).symm⟩
  · have hfl := compareFlag_of_ne heq
    exact ⟨_, _, _, exec_cmp s ha hb, jeqPast (by simp [hfl]), jneTaken (.inl hfl) hc, (if_neg heq).symm,
      (if_neg heq).symm⟩

/-! ## Call and return -/

/-- CALL of a register in range (R140). -/
theorem exec_call (s : State) {a : Nat} (ha : a < 8) :
    exec (.call a) s = .next { s.decrementSp with
      mem := Memory.write s.mem s.pushAddress (wrap (s.pc + 2)), pc := (s.decrementSp.x[a]).toNat } :=
  exec_of_ok (callEffect_ok s ha)

/-- RET (R141). -/
theorem exec_ret (s : State) :
    exec .ret s = .next { s with
      x := s.x.set 7 (wrap (s.x[7].toNat + 1)), pc := (Memory.read s.mem s.x[7].toNat).toNat } :=
  exec_of_ok (retEffect_eq s)

/-- The return address of a CALL that a fetch allows fits a byte (log 6). -/
theorem toNat_returnAddress {pc : Nat} (h : pc ≤ 253) : (wrap (pc + 2)).toNat = pc + 2 := by
  rw [toNat_wrap]
  exact Nat.mod_eq_of_lt (by omega)

/-- Settles O45: the return address is in the cell pushed to, and every other cell reads as before. -/
theorem callPushesTheReturnAddress : Obligations.CallPushesTheReturnAddress := by
  refine fun s a hs hpc => ⟨fun ha => ⟨wrap (s.x[7].toNat + 255), _, toNat_wrap _, exec_call s ha, rfl, ?_,
    ⟨_, State.memRead_of_write_same rfl hs s.pushAddress_lt, toNat_returnAddress hpc⟩,
    fun c hc => State.memRead_of_write_ne rfl hc, rfl⟩,
    fun ha => exec_of_error (e := .outOfRange .reg a) (callEffect_error s ha)⟩
  rw [← s.decrementSp_getElem ha]

/-- Settles O46: a pop always succeeds, for the stack pointer is an address of memory. -/
theorem returnPopsTheProgramCounter : Obligations.ReturnPopsTheProgramCounter := fun s =>
  ⟨_, _, s.memRead_ok s.sp.isLt, toNat_wrap _, exec_ret s⟩

/-- Settles O47: the CALL leaves `pc + 2` in the cell at the stack pointer, and the RET reads it. -/
theorem returnUndoesCall : Obligations.ReturnUndoesCall := by
  intro s t u a hs hpc ha hcall hsp hcell
  obtain ⟨p, t', hp, hcall', hx, -, ⟨v, hv, hvpc⟩, -, -⟩ := (callPushesTheReturnAddress s a hs hpc).1 ha
  obtain rfl : t = t' := Host.Outcome.next.inj (hcall.symm.trans hcall')
  obtain ⟨v', q, hv', hq, hret⟩ := returnPopsTheProgramCounter u
  have hsp7 : u.x[7] = p := by simp [hsp, hx]
  have hvv : v' = v := by
    rw [hcell, ← hsp, hsp7, hv] at hv'
    exact (Except.ok.inj hv').symm
  refine ⟨_, hret, by rw [← hvpc, hvv], ?_⟩
  have hlt : s.x[7].toNat < 256 := s.x[7].isLt
  rw [hsp7, hp] at hq
  simp only [Vector.getElem_set_self]
  exact BitVec.eq_of_toNat_eq (by omega)

/-! ## The halt and the run -/

/-- A run that has ended stays ended, under any fuel (40_execution_cycle.md R75). -/
theorem run_of_runEnd {s : State} {r : RunEnd} (h : s.runEnd = some r) (fuel : Nat) : run fuel s = some r := by
  cases fuel with
  | zero => exact h
  | succ fuel => rw [run, h]

/-- A run that has not ended takes a step and goes on (R75). -/
theorem run_succ_of_step {s t : State} (hs : s.runEnd = none) (h : step s = .next t) (fuel : Nat) :
    run (fuel + 1) s = run fuel t := by
  rw [run, hs, h]

/-- Settles O41: HALTED is an end of the run, whatever the fuel. -/
theorem haltEndsTheRun : Obligations.HaltEndsTheRun := fun _ =>
  ⟨exec_of_ok rfl, fun _ _ _ _ _ => rfl, run_of_runEnd rfl⟩

/-- Settles O53, by induction on the fuel of the run that ended. -/
theorem runResultIsIndependentOfFuel : Obligations.RunResultIsIndependentOfFuel := by
  intro s fuel more r
  induction fuel generalizing s with
  | zero => exact fun h => run_of_runEnd h _
  | succ fuel ih =>
    intro h
    cases hs : s.runEnd with
    | some r' =>
      rw [run_of_runEnd hs] at h
      rw [run_of_runEnd hs, h]
    | none =>
      obtain ⟨t, ht⟩ := nothingStopsTheModel.1 s
      rw [run_succ_of_step hs ht] at h
      rw [Nat.add_right_comm, run_succ_of_step hs ht]
      exact ih t h

/-- The result of an ended run holds the output trace of its state (R75). -/
theorem State.output_of_runEnd {s : State} {r : RunEnd} (h : s.runEnd = some r) : r.output = s.out := by
  cases hs : s.status with
  | running => simp [State.runEnd, hs] at h
  | halted | faulted =>
    simp only [State.runEnd, hs, Option.some.injEq] at h
    rw [← h, RunEnd.output]

/-- A step extends the output trace or leaves it (42_data_stack_io.md R123, 60_exceptions.md R188). -/
theorem step_out {s t : State} (h : step s = .next t) : ∃ e : List Byte, t.out = s.out ++ e := by
  rcases step_cases h with ⟨-, rfl⟩ | ⟨-, i, -, hok⟩ | ⟨-, e, rfl⟩
  · exact ⟨[], by simp⟩
  · exact ⟨emitted i s, congrArg State.out (effectOf_hostSide hok)⟩
  · exact ⟨[], by simp⟩

/-- Settles O54, by induction on the fuel: every step of the run extends the trace. -/
theorem runKeepsWhatWasEmitted : Obligations.RunKeepsWhatWasEmitted := by
  intro s fuel r
  induction fuel generalizing s with
  | zero => exact fun h => ⟨[], by rw [State.output_of_runEnd h, List.append_nil]⟩
  | succ fuel ih =>
    intro h
    cases hs : s.runEnd with
    | some r' =>
      rw [run_of_runEnd hs, Option.some.injEq] at h
      exact ⟨[], by rw [← h, State.output_of_runEnd hs, List.append_nil]⟩
    | none =>
      obtain ⟨t, ht⟩ := nothingStopsTheModel.1 s
      rw [run_succ_of_step hs ht] at h
      obtain ⟨later, hlater⟩ := ih t h
      obtain ⟨e, he⟩ := step_out ht
      exact ⟨e ++ later, by rw [hlater, he, List.append_assoc]⟩

end Sys2Proof.Machine

/-! PROOFS. 00_scope.md section 4 (R6): the frames, each read off what an instruction may write. -/

namespace Sys2Proof.Machine

/-- The registers an instruction may write. -/
def destinations : Instr → List Nat
  | .push _ | .call _ | .ret => [7]
  | .pop a => [a, 7]
  | i => (registerResult i).toList.map Prod.fst

theorem mem_destinations_of_registerResult {i : Instr} {a len : Nat} (h : registerResult i = some (a, len)) :
    a ∈ destinations i := by
  cases i <;> cases h <;> simp [destinations, registerResult]

/-- A completed instruction writes no register but its destinations. -/
theorem Shape.register_frame {i : Instr} {s t : State} (h : Shape i s t) {r : Nat} (hr : r ∉ destinations i) :
    t.x[r]? = s.x[r]? := by
  cases h with
  | register a len v ha hlen hi ht =>
    have hne : a ≠ r := fun heq => hr (heq ▸ mem_destinations_of_registerResult hi)
    rw [ht, Vector.getElem?_set_ne _ hne]
  | pop a ha hi ht =>
    subst hi ht
    simp only [destinations, List.mem_cons, List.not_mem_nil, or_false, not_or] at hr
    obtain ⟨hra, hr7⟩ := hr
    rw [State.incrementSp_x, Vector.getElem?_set_ne _ (Ne.symm hr7), Vector.getElem?_set_ne _ (Ne.symm hra)]
  | push a ha hi ht | call a ha hi ht | ret hi ht =>
    subst hi ht
    exact Vector.getElem?_set_ne (by decide) fun heq => hr (by simp [destinations, heq])
  | compare _ _ _ _ _ ht | print _ _ _ ht | jump _ _ _ _ ht | halt _ ht => rw [ht]

section Frame

variable {i : Instr} {s t : State} (h : exec i s = .next t)

include h

/-- No instruction writes a register but its destinations. -/
theorem exec_register_frame {r : Nat} (hr : r ∉ destinations i) : t.x[r]? = s.x[r]? := by
  rcases exec_cases h with hok | ⟨e, -, rfl⟩
  · exact (effectOf_shape hok).register_frame hr
  · rfl

/-- An instruction without a destination leaves the register file. -/
theorem exec_registers_frame (hi : destinations i = []) : t.x = s.x := by
  ext1 r hr
  have hframe := exec_register_frame h (r := r) (by simp [hi])
  simpa [hr] using hframe

/-- No instruction but PUSH and CALL changes a byte. -/
theorem exec_bytes_frame (hpush : ∀ r, i ≠ .push r) (hcall : ∀ r, i ≠ .call r) : SameBytes s t := by
  intro a
  by_contra hne
  obtain ⟨⟨r, hi | hi⟩, -⟩ := memoryIsWrittenOnlyByPushAndCall i s t a h hne
  · exact hpush r hi
  · exact hcall r hi

/-- No instruction but CMP changes the flag. -/
theorem exec_fl_frame (hcmp : ∀ a b, i ≠ .cmp a b) : t.fl = s.fl :=
  (exec_fl_cases h).resolve_right fun ⟨⟨a, b, hi⟩, _⟩ => hcmp a b hi

/-- No instruction but PRN changes the output trace. -/
theorem exec_out_frame (hprn : ∀ a, i ≠ .prn a) : t.out = s.out := by
  by_contra hne
  obtain ⟨a, -, hi, -⟩ := outputTraceIsAppendOnlyAndUnread.2.1 i s t h hne
  exact hprn a hi

/-- No instruction but HLT changes the control registers, unless it takes a fault. -/
theorem exec_control_frame (hhlt : i ≠ .hlt) : SameControl s t ∨ FaultTaken s t := by
  rcases statusIsWrittenOnlyByHaltAndFaults i s t h with hsame | ⟨hi, -⟩ | hfault
  · exact .inl hsame
  · exact absurd hi hhlt
  · exact .inr hfault

end Frame

/-- Settles O49: none of the seven has another destination, and none is an instruction that writes anything else. -/
theorem registerResultFrame : Obligations.RegisterResultFrame := by
  intro s t a b imm i hi h
  have hclass : destinations i = [a] ∧ (∀ r, i ≠ .push r) ∧ (∀ r, i ≠ .call r) ∧ (∀ a b, i ≠ .cmp a b) ∧
      (∀ a, i ≠ .prn a) ∧ i ≠ .hlt := by
    simp only [List.mem_cons, List.not_mem_nil, or_false] at hi
    rcases hi with rfl | rfl | rfl | rfl | rfl | rfl | rfl <;> simp [destinations, registerResult]
  obtain ⟨hdest, hpush, hcall, hcmp, hprn, hhlt⟩ := hclass
  exact ⟨fun r hr => exec_register_frame h (by simpa [hdest] using hr), exec_fl_frame h hcmp, exec_out_frame h hprn,
    exec_bytes_frame h hpush hcall, exec_control_frame h hhlt⟩

/-- Settles O50: none of the six has a destination or pushes, and of the six only CMP, PRN and HLT write anything. -/
theorem noResultFrame : Obligations.NoResultFrame := by
  intro s t a b i hi h
  have hclass : destinations i = [] ∧ (∀ r, i ≠ .push r) ∧ (∀ r, i ≠ .call r) ∧
      (∀ a' b', i = .cmp a' b' → i = .cmp a b) ∧ (∀ a', i = .prn a' → i = .prn a) := by
    simp only [List.mem_cons, List.not_mem_nil, or_false] at hi
    rcases hi with rfl | rfl | rfl | rfl | rfl | rfl <;> simp [destinations, registerResult]
  obtain ⟨hdest, hpush, hcall, hcmp, hprn⟩ := hclass
  exact ⟨exec_registers_frame h hdest, exec_bytes_frame h hpush hcall,
    fun hne => exec_fl_frame h fun a' b' heq => hne (hcmp a' b' heq),
    fun hne => exec_out_frame h fun a' heq => hne (hprn a' heq),
    (statusIsWrittenOnlyByHaltAndFaults i s t h).imp_right Or.symm⟩

/-- Settles O51: a byte that changes is the one at the address pushed to. -/
theorem stackStoreFrame : Obligations.StackStoreFrame := by
  intro s t a i hi h
  have hclass : destinations i = [7] ∧ (∀ a b, i ≠ .cmp a b) ∧ (∀ a, i ≠ .prn a) ∧ i ≠ .hlt := by
    simp only [List.mem_cons, List.not_mem_nil, or_false] at hi
    rcases hi with rfl | rfl <;> simp [destinations]
  obtain ⟨hdest, hcmp, hprn, hhlt⟩ := hclass
  refine ⟨fun r hr => exec_register_frame h (by simpa [hdest] using hr), exec_fl_frame h hcmp,
    exec_out_frame h hprn, fun c hc => ?_, exec_control_frame h hhlt⟩
  by_contra hne
  exact hc (memoryIsWrittenOnlyByPushAndCall i s t c h hne).2

/-- Settles O52: the destinations are the stack pointer and, for POP, its register. -/
theorem stackLoadFrame : Obligations.StackLoadFrame := by
  intro s t a i hi h
  have hclass : (∀ r, r ≠ 7 → (i = .pop a → r ≠ a) → r ∉ destinations i) ∧ (∀ r, i ≠ .push r) ∧
      (∀ r, i ≠ .call r) ∧ (∀ a b, i ≠ .cmp a b) ∧ (∀ a, i ≠ .prn a) ∧ i ≠ .hlt := by
    simp only [List.mem_cons, List.not_mem_nil, or_false] at hi
    rcases hi with rfl | rfl <;> simp +contextual [destinations]
  obtain ⟨hdest, hpush, hcall, hcmp, hprn, hhlt⟩ := hclass
  exact ⟨fun r h7 ha => exec_register_frame h (hdest r h7 ha), exec_fl_frame h hcmp, exec_out_frame h hprn,
    exec_bytes_frame h hpush hcall, exec_control_frame h hhlt⟩

end Sys2Proof.Machine
